-- ==== Sys2Proof/Word.lean ====
section
/-!
DEFINITION. The word type of the hardware: the register width XLEN and bytes.
-/

namespace Sys2Proof

/-- One byte, the smallest addressable unit (R16). -/
abbrev Byte := BitVec 8

/-- The two admitted values of XLEN (R2, D1): RV32 and RV64.
RV128, and every other width, has no constructor and so is no configuration of the model (D24). -/
inductive Xlen where
  | rv32
  | rv64
  deriving DecidableEq, Repr

/-- XLEN in bits: the width of a general register, of the pc and of an address (R2, R10, R13, R16). -/
def Xlen.bits : Xlen → Nat
  | .rv32 => 32
  | .rv64 => 64

end Sys2Proof
end

