-- ==== Sys2Proof/Config.lean ====
section
/-!
DEFINITION. What is fixed for one machine and never changed by a step: the parameters the spec leaves OPEN
(00_scope.md section 4), and the model's own choice of them for the state after reset.
-/

namespace Sys2Proof

/-- The two kinds of memory region (R25). -/
inductive RegionKind where
  /-- Fetch and `lw` allowed, `sw` refused. -/
  | text
  /-- `lw` and `sw` allowed, fetch refused. -/
  | data
  deriving DecidableEq, Repr

/-- One region of MEMMAP: the addresses from `base` up to, not including, `base + size` (R25). -/
structure Region where
  base : Nat
  size : Nat
  kind : RegionKind
  deriving DecidableEq, Repr

/-- The parameters of the model (00_scope.md section 4). All are OPEN in the spec, so they are data of a state:
a claim over every state is a claim over every admitted machine. -/
structure Config where
  /-- XLEN, 32 or 64 (D1). -/
  xlen    : Xlen
  /-- HAS_C: whether the 16-bit instructions exist (D3). -/
  hasC    : Bool
  /-- MEMMAP (R25, D11). -/
  memmap  : List Region
  /-- RESET_PC, an XLEN-bit address (R90, D18). -/
  resetPc : Nat
  /-- HALT_PC, the address at which a run ends (R95, D21). No step reads it. -/
  haltPc  : Nat
  deriving DecidableEq, Repr

/-- IALIGN/8, the alignment in bytes of an instruction: 2 when HAS_C, else 4 (R22). -/
def Config.ialignBytes (cfg : Config) : Nat :=
  if cfg.hasC then 2 else 4

/-- Two regions have no address in common (R25: "non-overlapping"). -/
abbrev Region.Disjoint (r q : Region) : Prop :=
  r.base + r.size ≤ q.base ∨ q.base + q.size ≤ r.base

/-- What R25 and R95 ask of the parameters: the regions lie in the address space and do not overlap;
RESET_PC and HALT_PC are XLEN-bit addresses; HALT_PC lies outside every text region. -/
abbrev Config.WellFormed (cfg : Config) : Prop :=
  (∀ r ∈ cfg.memmap, r.base + r.size ≤ 2 ^ cfg.xlen.bits) ∧
  cfg.memmap.Pairwise Region.Disjoint ∧
  cfg.resetPc < 2 ^ cfg.xlen.bits ∧
  cfg.haltPc < 2 ^ cfg.xlen.bits ∧
  ∀ r ∈ cfg.memmap, r.kind = .text → cfg.haltPc < r.base ∨ r.base + r.size ≤ cfg.haltPc

/-- `n` bytes from `a` lie wholly inside one region, of the given kind if one is given (R25). -/
abbrev Config.Inside (cfg : Config) (kind : Option RegionKind) (a n : Nat) : Prop :=
  ∃ r ∈ cfg.memmap, (∀ k ∈ kind, r.kind = k) ∧ r.base ≤ a ∧ a + n ≤ r.base + r.size

/-- An address inside a text region (R25). -/
abbrev Config.InText (cfg : Config) (a : Nat) : Prop :=
  ∃ r ∈ cfg.memmap, r.kind = .text ∧ r.base ≤ a ∧ a < r.base + r.size

/-- DESIGN CHOICE (log 2): the parameters of `State.reset`. The spec leaves every one of them OPEN.
The regions fill the address space: the 2^30 bytes from RESET_PC are text and all else is data.
HALT_PC is 0x100, the value the spec's own vectors use. -/
def Config.reset : Config where
  xlen    := .rv64
  hasC    := true
  memmap  :=
    [ { base := 0, size := 0x80000000, kind := .data },
      { base := 0x80000000, size := 0x40000000, kind := .text },
      { base := 0xC0000000, size := 2 ^ 64 - 0xC0000000, kind := .data } ]
  resetPc := 0x80000000
  haltPc  := 0x100

/-- DESIGN CHOICE (log 4): what a memory byte that is not listed reads as. R18 leaves an unloaded data byte
unspecified; every content of memory is representable by listing its other bytes. -/
def unlistedByte : Byte := 0

end Sys2Proof
end

