-- ==== Sys2Proof/Syntax.lean ====
section
/-!
DEFINITION. The instructions as syntax: one constructor per row of spec/opcode_table.json, with the operands its
rule gives it. What an operand may be beyond its type is in WellFormed.lean.
-/

namespace Sys2Proof

/-- A general register number, x0 to x31 (R10). -/
abbrev Reg := Fin 32

/-- A 3-bit register field rd' or rs1'; it names register x(8 + field), so x8 to x15 (R36). -/
abbrev CReg := Fin 8

/-- The 1-bit field rs2* that selects the second source of `bfxp` and `bfxpc` (R37). -/
inductive Src2 where
  /-- rs2* = 0: x0. -/
  | zero
  /-- rs2* = 1: the destination register itself. -/
  | rd
  deriving DecidableEq, Repr

/-- The instructions of spec/opcode_table.json, in the table's order. -/
inductive Instr where
  /-- `bfxp rd, rs1, rs2, start, len, dest` (R51). `len` is the true length, 1 to 32. -/
  | bfxp (rd rs1 : CReg) (rs2 : Src2) (start len dest : Nat)
  /-- `bfxpc rd, rs1, rs2, start, len, dest` (R52). -/
  | bfxpc (rd rs1 : CReg) (rs2 : Src2) (start len dest : Nat)
  /-- `addi rd, rs1, imm` (R62). -/
  | addi (rd rs1 : Reg) (imm : BitVec 12)
  /-- `slli rd, rs1, shamt` (R63). -/
  | slli (rd rs1 : Reg) (shamt : Nat)
  /-- `srli rd, rs1, shamt` (R64). -/
  | srli (rd rs1 : Reg) (shamt : Nat)
  /-- `srai rd, rs1, shamt` (R65). -/
  | srai (rd rs1 : Reg) (shamt : Nat)
  /-- `or rd, rs1, rs2` (R66). -/
  | or (rd rs1 rs2 : Reg)
  /-- `lw rd, imm(rs1)` (R67). -/
  | lw (rd rs1 : Reg) (imm : BitVec 12)
  /-- `sw rs2, imm(rs1)` (R68). -/
  | sw (rs2 rs1 : Reg) (imm : BitVec 12)
  /-- `bne rs1, rs2, offset` (R69). `offset` is the 13-bit immediate with its always-zero bit 0. -/
  | bne (rs1 rs2 : Reg) (offset : BitVec 13)
  /-- `jalr rd, imm(rs1)` (R70). -/
  | jalr (rd rs1 : Reg) (imm : BitVec 12)
  /-- `c.srai rd', shamt` (R72). -/
  | cSrai (rd : CReg) (shamt : Nat)
  /-- `c.jr rs1` (R73). -/
  | cJr (rs1 : Reg)
  deriving DecidableEq, Repr

/-- An instruction as it stands in memory: one 16-bit parcel, or a 32-bit word of two parcels (R29). -/
inductive InstrWord where
  | half (p : BitVec 16)
  | full (w : BitVec 32)
  deriving DecidableEq, Repr

/-- The bits of an instruction as one number: what IllegalInstruction records, zero-extended (R81). -/
def InstrWord.toNat : InstrWord → Nat
  | .half p => p.toNat
  | .full w => w.toNat

/-- The length in bytes, 2 or 4. -/
def InstrWord.length : InstrWord → Nat
  | .half _ => 2
  | .full _ => 4

end Sys2Proof
end

