-- ==== Sys2Proof/WellFormed.lean ====
section
/-!
DEFINITION. Which terms of Instr are instructions of the machine a Config describes: exactly those that some
instruction word spells. It depends on XLEN and HAS_C only.
-/

namespace Sys2Proof

/-- The longest field `bfxp` and `bfxpc` can name: 31 on RV32, 32 on RV64 (R33). -/
def Xlen.maxLen : Xlen → Nat
  | .rv32 => 31
  | .rv64 => 32

/-- The operand conditions of the BF format (R33, R38, R45): the length is one the 5-bit field can spell, and neither
window reaches past bit XLEN-1. Sums are of natural numbers. -/
abbrev Xlen.BfLegal (x : Xlen) (start len dest : Nat) : Prop :=
  (1 ≤ len ∧ len ≤ x.maxLen) ∧ start + len ≤ x.bits ∧ dest + len ≤ x.bits

/-- The instruction exists on this machine and its operands are encodable: the 16-bit instructions only when HAS_C (R72, R73),
a shift amount below XLEN (R63 to R65, R72), no zero amount in `c.srai` (R72), no x0 in `c.jr` (R73), an even branch
offset (R61). -/
def Instr.wellFormed (cfg : Config) : Instr → Bool
  | .bfxp _ _ _ start len dest  => decide (cfg.xlen.BfLegal start len dest)
  | .bfxpc _ _ _ start len dest => decide (cfg.xlen.BfLegal start len dest)
  | .addi _ _ _      => true
  | .slli _ _ shamt  => decide (shamt < cfg.xlen.bits)
  | .srli _ _ shamt  => decide (shamt < cfg.xlen.bits)
  | .srai _ _ shamt  => decide (shamt < cfg.xlen.bits)
  | .or _ _ _        => true
  | .lw _ _ _        => true
  | .sw _ _ _        => true
  | .bne _ _ offset  => !offset.getLsbD 0
  | .jalr _ _ _      => true
  | .cSrai _ shamt   => cfg.hasC && decide (shamt ≠ 0) && decide (shamt < cfg.xlen.bits)
  | .cJr rs1         => cfg.hasC && decide (rs1 ≠ 0)

end Sys2Proof
end

