-- ==== Sys2Proof/Decode.lean ====
section
/-!
DEFINITION. The decoder, total on any bytes and rejecting by name; after it the encoder, written from the same
layouts; the assembler of the BF format; the assembly text of an instruction; and `decodeTableWord`.
-/

namespace Sys2Proof

/-! ### Bit fields -/

/-- `v` placed in a `w`-bit word with its bit 0 at bit `lo`: one term of the OR by which R45 builds a word. -/
def place {n : Nat} (w : Nat) (v : BitVec n) (lo : Nat) : BitVec w :=
  v.setWidth w <<< lo

/-- A 5-bit register field as a register number. -/
def regOf (b : BitVec 5) : Reg := b.toFin

/-- A 3-bit register field (R36). -/
def cregOf (b : BitVec 3) : CReg := b.toFin

/-- A register number as a 5-bit field. -/
def regBits (r : Reg) : BitVec 5 := BitVec.ofNat 5 r.val

/-- A compressed register as its 3-bit field (R36). -/
def cregBits (r : CReg) : BitVec 3 := BitVec.ofNat 3 r.val

/-- The register a 3-bit field names: x(8 + field) (R36). -/
def CReg.toReg (r : CReg) : Reg := ⟨8 + r.val, by omega⟩

/-- The field rs2* (R37). -/
def src2Of (b : BitVec 1) : Src2 := if b = 1#1 then .rd else .zero

/-- rs2* as a bit (R37). -/
def src2Bits : Src2 → BitVec 1
  | .zero => 0#1
  | .rd   => 1#1

/-! ### Decoder -/

/-- Why a word is not an instruction of the machine. Each is raised by the decoder alone; the fetch step turns every one
but `truncated` into IllegalInstruction(word) (R42, R74, R81). -/
inductive Reject where
  /-- RV32 custom-3 word with len field 0 (R38 a). -/
  | lenFieldZero
  /-- custom-3 word with start + len > XLEN (R38 b, R39, R40). -/
  | startPastXlen
  /-- custom-3 word with dest + len > XLEN (R38 c, R39). -/
  | destPastXlen
  /-- RV32 `slli`, `srli`, `srai` or `c.srai` whose shift amount has bit 5 set (R63 to R65, R72). -/
  | shamtPastXlen
  /-- `c.srai` with shift amount 0, a hint that is not admitted (R72). -/
  | zeroShamtHint
  /-- `c.jr` with rs1 = 0 (R73). -/
  | zeroJumpRegister
  /-- A 16-bit parcel when HAS_C is false (R29, R81). -/
  | compressedAbsent
  /-- Any other word: legal base instructions that the spec does not admit are among them (R74). -/
  | notAdmitted
  /-- Fewer bytes than the instruction has. The fetch step never meets it. -/
  | truncated
  deriving DecidableEq, Repr

/-- The operand `start` of a BF word: bits 14:13 above bits 31:28 (R32). -/
def bfStart (w : BitVec 32) : BitVec 6 :=
  place 6 (w.extractLsb' 28 4) 0 ||| place 6 (w.extractLsb' 13 2) 4

/-- The len field of a BF word: bit 12 above bits 27:24 (R33). -/
def bfLenField (w : BitVec 32) : BitVec 5 :=
  place 5 (w.extractLsb' 24 4) 0 ||| place 5 (w.extractLsb' 12 1) 4

/-- The operand `dest` of a BF word: bits 23:18 (R34). -/
def bfDest (w : BitVec 32) : BitVec 6 := w.extractLsb' 18 6

/-- The length a len field spells: 32 for 0, else itself (R33). Field 0 is a length on RV64 only. -/
def lenOf (lenf : BitVec 5) : Nat := if lenf = 0#5 then 32 else lenf.toNat

/-- The custom-3 decoder, the block of R41 line by line. -/
def decodeCustom3 (x : Xlen) (w : BitVec 32) : Except Reject Instr :=
  let rd    := cregOf (w.extractLsb' 7 3)
  let rs2   := src2Of (w.extractLsb' 10 1)
  let comp  := w.extractLsb' 11 1
  let rs1   := cregOf (w.extractLsb' 15 3)
  let start := (bfStart w).toNat
  let len   := lenOf (bfLenField w)
  let dest  := (bfDest w).toNat
  if x = .rv32 ∧ bfLenField w = 0#5 then .error .lenFieldZero
  else if x.bits < start + len then .error .startPastXlen
  else if x.bits < dest + len then .error .destPastXlen
  else if comp = 0#1 then .ok (.bfxp rd rs1 rs2 start len dest)
  else .ok (.bfxpc rd rs1 rs2 start len dest)

/-- The S-type immediate: bits 31:25 above bits 11:7 (R49, R61). -/
def immS (w : BitVec 32) : BitVec 12 :=
  place 12 (w.extractLsb' 7 5) 0 ||| place 12 (w.extractLsb' 25 7) 5

/-- The B-type immediate: bit 31, bit 7, bits 30:25, bits 11:8, then a zero (R49, R61). -/
def immB (w : BitVec 32) : BitVec 13 :=
  place 13 (w.extractLsb' 8 4) 1 ||| place 13 (w.extractLsb' 25 6) 5 |||
  place 13 (w.extractLsb' 7 1) 11 ||| place 13 (w.extractLsb' 31 1) 12

/-- The J-type immediate: bit 31, bits 19:12, bit 20, bits 30:21, then a zero (R49). No admitted instruction has this format; it is
data for the source's routines. -/
def immJ (w : BitVec 32) : BitVec 21 :=
  place 21 (w.extractLsb' 21 10) 1 ||| place 21 (w.extractLsb' 20 1) 11 |||
  place 21 (w.extractLsb' 12 8) 12 ||| place 21 (w.extractLsb' 31 1) 20

/-- The CJ-type immediate of a 16-bit word: bits 12, 8, 10:9, 6, 7, 2, 11, 5:3, then a zero (R49). No admitted instruction has this
format; it is data for the source's routines. -/
def immCJ (p : BitVec 16) : BitVec 12 :=
  place 12 (p.extractLsb' 3 3) 1 ||| place 12 (p.extractLsb' 11 1) 4 ||| place 12 (p.extractLsb' 2 1) 5 |||
  place 12 (p.extractLsb' 7 1) 6 ||| place 12 (p.extractLsb' 6 1) 7 ||| place 12 (p.extractLsb' 9 2) 8 |||
  place 12 (p.extractLsb' 8 1) 10 ||| place 12 (p.extractLsb' 12 1) 11

/-- Opcode `0010011`: `addi`, `slli`, `srli`, `srai` (R62 to R65). -/
def decodeOpImm (x : Xlen) (w : BitVec 32) : Except Reject Instr :=
  let rd  := regOf (w.extractLsb' 7 5)
  let f3  := w.extractLsb' 12 3
  let rs1 := regOf (w.extractLsb' 15 5)
  let sh  := (w.extractLsb' 20 6).toNat
  let f6  := w.extractLsb' 26 6
  if f3 = 0b000#3 then .ok (.addi rd rs1 (w.extractLsb' 20 12))
  else if f3 = 0b001#3 ∧ f6 = 0b000000#6 then
    if sh < x.bits then .ok (.slli rd rs1 sh) else .error .shamtPastXlen
  else if f3 = 0b101#3 ∧ f6 = 0b000000#6 then
    if sh < x.bits then .ok (.srli rd rs1 sh) else .error .shamtPastXlen
  else if f3 = 0b101#3 ∧ f6 = 0b010000#6 then
    if sh < x.bits then .ok (.srai rd rs1 sh) else .error .shamtPastXlen
  else .error .notAdmitted

/-- A 32-bit word (R41, R61 to R70, R74). -/
def decode32 (x : Xlen) (w : BitVec 32) : Except Reject Instr :=
  let op  := w.extractLsb' 0 7
  let rd  := regOf (w.extractLsb' 7 5)
  let f3  := w.extractLsb' 12 3
  let rs1 := regOf (w.extractLsb' 15 5)
  let rs2 := regOf (w.extractLsb' 20 5)
  let f7  := w.extractLsb' 25 7
  if op = 0b1111011#7 then decodeCustom3 x w
  else if op = 0b0010011#7 then decodeOpImm x w
  else if op = 0b0110011#7 ∧ f3 = 0b110#3 ∧ f7 = 0b0000000#7 then .ok (.or rd rs1 rs2)
  else if op = 0b0000011#7 ∧ f3 = 0b010#3 then .ok (.lw rd rs1 (w.extractLsb' 20 12))
  else if op = 0b0100011#7 ∧ f3 = 0b010#3 then .ok (.sw rs2 rs1 (immS w))
  else if op = 0b1100011#7 ∧ f3 = 0b001#3 then .ok (.bne rs1 rs2 (immB w))
  else if op = 0b1100111#7 ∧ f3 = 0b000#3 then .ok (.jalr rd rs1 (w.extractLsb' 20 12))
  else .error .notAdmitted

/-- The shift amount of `c.srai`: bit 12 above bits 6:2 (R72). -/
def cShamt (p : BitVec 16) : BitVec 6 :=
  place 6 (p.extractLsb' 2 5) 0 ||| place 6 (p.extractLsb' 12 1) 5

/-- A 16-bit parcel (R72, R73, R74); none is an instruction when HAS_C is false (R29). -/
def decode16 (cfg : Config) (p : BitVec 16) : Except Reject Instr :=
  let sh := (cShamt p).toNat
  if cfg.hasC = false then .error .compressedAbsent
  else if p.extractLsb' 0 2 = 0b01#2 ∧ p.extractLsb' 13 3 = 0b100#3 ∧ p.extractLsb' 10 2 = 0b01#2 then
    if sh = 0 then .error .zeroShamtHint
    else if sh < cfg.xlen.bits then .ok (.cSrai (cregOf (p.extractLsb' 7 3)) sh)
    else .error .shamtPastXlen
  else if p.extractLsb' 0 2 = 0b10#2 ∧ p.extractLsb' 12 4 = 0b1000#4 ∧ p.extractLsb' 2 5 = 0#5 then
    if p.extractLsb' 7 5 = 0#5 then .error .zeroJumpRegister
    else .ok (.cJr (regOf (p.extractLsb' 7 5)))
  else .error .notAdmitted

/-- An instruction word of either length. -/
def decodeWord (cfg : Config) : InstrWord → Except Reject Instr
  | .half p => decode16 cfg p
  | .full w => decode32 cfg.xlen w

/-- The length rule: a parcel with bits 1:0 = 11 begins a 32-bit word, any other is a 16-bit instruction (R29, R61). -/
def isHalf (p : BitVec 16) : Bool := p.extractLsb' 0 2 != 0b11#2

/-- Two bytes as a parcel, low byte first (R21). -/
def parcelOf (b0 b1 : Byte) : BitVec 16 := place 16 b0 0 ||| place 16 b1 8

/-- Two parcels as a 32-bit word, the one at the lower address first (R21, R29). -/
def wordOf (p0 p1 : BitVec 16) : BitVec 32 := place 32 p0 0 ||| place 32 p1 16

/-- The first instruction of a list of bytes, lowest address first, and the bytes after it. -/
def decode (cfg : Config) : List Byte → Except Reject (Instr × List Byte)
  | b0 :: b1 :: rest =>
    let p0 := parcelOf b0 b1
    if isHalf p0 then
      match decode16 cfg p0 with
      | .ok i    => .ok (i, rest)
      | .error r => .error r
    else
      match rest with
      | b2 :: b3 :: rest' =>
        match decode32 cfg.xlen (wordOf p0 (parcelOf b2 b3)) with
        | .ok i    => .ok (i, rest')
        | .error r => .error r
      | _ => .error .truncated
  | _ => .error .truncated

/-! ### Encoder -/

/-- The BF format (R31), as R45 computes the word. `lenf = len mod 32`. -/
def encodeBf (comp : BitVec 1) (rd rs1 : CReg) (rs2 : Src2) (start len dest : Nat) : BitVec 32 :=
  let s := BitVec.ofNat 6 start
  let l := BitVec.ofNat 5 len
  place 32 0b1111011#7 0 ||| place 32 (cregBits rd) 7 ||| place 32 (src2Bits rs2) 10 ||| place 32 comp 11 |||
  place 32 (l.extractLsb' 4 1) 12 ||| place 32 (s.extractLsb' 4 2) 13 ||| place 32 (cregBits rs1) 15 |||
  place 32 (BitVec.ofNat 6 dest) 18 ||| place 32 (l.extractLsb' 0 4) 24 ||| place 32 (s.extractLsb' 0 4) 28

/-- The I-type format (R61). -/
def encodeI (op : BitVec 7) (f3 : BitVec 3) (rd rs1 : Reg) (imm : BitVec 12) : BitVec 32 :=
  place 32 op 0 ||| place 32 (regBits rd) 7 ||| place 32 f3 12 ||| place 32 (regBits rs1) 15 ||| place 32 imm 20

/-- The I-type shape of the shifts: six fixed bits above a 6-bit amount (R63). -/
def encodeShift (f3 : BitVec 3) (f6 : BitVec 6) (rd rs1 : Reg) (shamt : Nat) : BitVec 32 :=
  place 32 0b0010011#7 0 ||| place 32 (regBits rd) 7 ||| place 32 f3 12 ||| place 32 (regBits rs1) 15 |||
  place 32 (BitVec.ofNat 6 shamt) 20 ||| place 32 f6 26

/-- The R-type format (R61). -/
def encodeR (op : BitVec 7) (f3 : BitVec 3) (f7 : BitVec 7) (rd rs1 rs2 : Reg) : BitVec 32 :=
  place 32 op 0 ||| place 32 (regBits rd) 7 ||| place 32 f3 12 ||| place 32 (regBits rs1) 15 |||
  place 32 (regBits rs2) 20 ||| place 32 f7 25

/-- An S-type immediate where the figure puts it, the other bits zero (R49): `imm[11:5]`, `imm[4:0]`. -/
def layS (imm : BitVec 12) : BitVec 32 :=
  place 32 (imm.extractLsb' 0 5) 7 ||| place 32 (imm.extractLsb' 5 7) 25

/-- A B-type immediate (R49): `imm[12|10:5]`, `imm[4:1|11]`. Bit 0 is not stored. -/
def layB (imm : BitVec 13) : BitVec 32 :=
  place 32 (imm.extractLsb' 11 1) 7 ||| place 32 (imm.extractLsb' 1 4) 8 |||
  place 32 (imm.extractLsb' 5 6) 25 ||| place 32 (imm.extractLsb' 12 1) 31

/-- A J-type immediate (R49): `imm[20|10:1|11|19:12]`. Bit 0 is not stored. -/
def layJ (imm : BitVec 21) : BitVec 32 :=
  place 32 (imm.extractLsb' 12 8) 12 ||| place 32 (imm.extractLsb' 11 1) 20 |||
  place 32 (imm.extractLsb' 1 10) 21 ||| place 32 (imm.extractLsb' 20 1) 31

/-- A CJ-type immediate in a 16-bit word (R49): `imm[11|4|9:8|10|6|7|3:1|5]`. Bit 0 is not stored. -/
def layCJ (imm : BitVec 12) : BitVec 16 :=
  place 16 (imm.extractLsb' 5 1) 2 ||| place 16 (imm.extractLsb' 1 3) 3 ||| place 16 (imm.extractLsb' 7 1) 6 |||
  place 16 (imm.extractLsb' 6 1) 7 ||| place 16 (imm.extractLsb' 10 1) 8 ||| place 16 (imm.extractLsb' 8 2) 9 |||
  place 16 (imm.extractLsb' 4 1) 11 ||| place 16 (imm.extractLsb' 11 1) 12

/-- The S-type format (R49, R61). -/
def encodeS (op : BitVec 7) (f3 : BitVec 3) (rs2 rs1 : Reg) (imm : BitVec 12) : BitVec 32 :=
  place 32 op 0 ||| place 32 f3 12 ||| place 32 (regBits rs1) 15 ||| place 32 (regBits rs2) 20 ||| layS imm

/-- The B-type format (R49, R61). -/
def encodeB (op : BitVec 7) (f3 : BitVec 3) (rs1 rs2 : Reg) (imm : BitVec 13) : BitVec 32 :=
  place 32 op 0 ||| place 32 f3 12 ||| place 32 (regBits rs1) 15 ||| place 32 (regBits rs2) 20 ||| layB imm

/-- `c.srai`, the CB-type format (R61, R72). -/
def encodeCSrai (rd : CReg) (shamt : Nat) : BitVec 16 :=
  let h := BitVec.ofNat 6 shamt
  place 16 0b01#2 0 ||| place 16 (h.extractLsb' 0 5) 2 ||| place 16 (cregBits rd) 7 ||| place 16 0b01#2 10 |||
  place 16 (h.extractLsb' 5 1) 12 ||| place 16 0b100#3 13

/-- `c.jr`, the CR-type format (R61, R73). -/
def encodeCJr (rs1 : Reg) : BitVec 16 :=
  place 16 0b10#2 0 ||| place 16 (regBits rs1) 7 ||| place 16 0b1000#4 12

/-- The word of a well-formed instruction. -/
def encode : Instr → InstrWord
  | .bfxp rd rs1 rs2 start len dest  => .full (encodeBf 0#1 rd rs1 rs2 start len dest)
  | .bfxpc rd rs1 rs2 start len dest => .full (encodeBf 1#1 rd rs1 rs2 start len dest)
  | .addi rd rs1 imm     => .full (encodeI 0b0010011#7 0b000#3 rd rs1 imm)
  | .slli rd rs1 shamt   => .full (encodeShift 0b001#3 0b000000#6 rd rs1 shamt)
  | .srli rd rs1 shamt   => .full (encodeShift 0b101#3 0b000000#6 rd rs1 shamt)
  | .srai rd rs1 shamt   => .full (encodeShift 0b101#3 0b010000#6 rd rs1 shamt)
  | .or rd rs1 rs2       => .full (encodeR 0b0110011#7 0b110#3 0b0000000#7 rd rs1 rs2)
  | .lw rd rs1 imm       => .full (encodeI 0b0000011#7 0b010#3 rd rs1 imm)
  | .sw rs2 rs1 imm      => .full (encodeS 0b0100011#7 0b010#3 rs2 rs1 imm)
  | .bne rs1 rs2 offset  => .full (encodeB 0b1100011#7 0b001#3 rs1 rs2 offset)
  | .jalr rd rs1 imm     => .full (encodeI 0b1100111#7 0b000#3 rd rs1 imm)
  | .cSrai rd shamt      => .half (encodeCSrai rd shamt)
  | .cJr rs1             => .half (encodeCJr rs1)

/-- The word's own bits agree with its length (R29): what the fetch step can read. -/
def InstrWord.lengthOk : InstrWord → Bool
  | .half p => isHalf p
  | .full w => w.extractLsb' 0 2 == 0b11#2

/-- The bytes of an instruction word, lowest address first (R21). -/
def InstrWord.bytes : InstrWord → List Byte
  | .half p => [p.extractLsb' 0 8, p.extractLsb' 8 8]
  | .full w => [w.extractLsb' 0 8, w.extractLsb' 8 8, w.extractLsb' 16 8, w.extractLsb' 24 8]

/-! ### Assembler of the BF format and assembly text -/

/-- The 3-bit field that names a register, for x8 to x15 only (R36). -/
def cregOfReg (r : Reg) : Option CReg :=
  if h : 8 ≤ r.val ∧ r.val ≤ 15 then some ⟨r.val - 8, by omega⟩ else none

/-- The field rs2* for a second source, which is x0 or the destination and nothing else (R37, R45). -/
def src2OfReg (rd rs2 : Reg) : Option Src2 :=
  if rs2 = 0 then some .zero else if rs2 = rd then some .rd else none

/-- The assembler of the 32-bit format: the instruction that the statement `bfxp rd, rs1, rs2, start, len, dest` (or `bfxpc`
when `comp`) spells, and none where R45 says that it has no encoding (D22). -/
def assembleBf (x : Xlen) (comp : Bool) (rd rs1 rs2 : Reg) (start len dest : Nat) : Option Instr :=
  match cregOfReg rd, cregOfReg rs1, src2OfReg rd rs2 with
  | some d, some a, some t =>
    if x.BfLegal start len dest then
      some (if comp then .bfxpc d a t start len dest else .bfxp d a t start len dest)
    else none
  | _, _, _ => none

/-- The assembler's name of a register (R12). -/
def regName (r : Reg) : String :=
  (["zero", "ra", "sp", "gp", "tp", "t0", "t1", "t2", "s0", "s1", "a0", "a1", "a2", "a3", "a4", "a5"] ++
   ["a6", "a7", "s2", "s3", "s4", "s5", "s6", "s7", "s8", "s9", "s10", "s11", "t3", "t4", "t5", "t6"]).getD r.val ""

/-- The second source as R44 writes it: `zero`, or the destination's name. -/
def src2Name (rd : CReg) : Src2 → String
  | .zero => regName 0
  | .rd   => regName rd.toReg

/-- The mnemonic, as the opcode table spells it. -/
def Instr.mnemonic : Instr → String
  | .bfxp _ _ _ _ _ _  => "bfxp"
  | .bfxpc _ _ _ _ _ _ => "bfxpc"
  | .addi _ _ _ => "addi"
  | .slli _ _ _ => "slli"
  | .srli _ _ _ => "srli"
  | .srai _ _ _ => "srai"
  | .or _ _ _   => "or"
  | .lw _ _ _   => "lw"
  | .sw _ _ _   => "sw"
  | .bne _ _ _  => "bne"
  | .jalr _ _ _ => "jalr"
  | .cSrai _ _  => "c.srai"
  | .cJr _      => "c.jr"

/-- A base register and offset, `imm(rs1)` (R67). -/
def baseOffset (rs1 : Reg) (imm : BitVec 12) : String :=
  toString imm.toInt ++ "(" ++ regName rs1 ++ ")"

/-- The operands of an assembly statement, in the order of the table's syntax lines (R44 for `bfxp` and `bfxpc`), immediates in
decimal. -/
def Instr.operandTexts : Instr → List String
  | .bfxp rd rs1 rs2 start len dest =>
    [regName rd.toReg, regName rs1.toReg, src2Name rd rs2, toString start, toString len, toString dest]
  | .bfxpc rd rs1 rs2 start len dest =>
    [regName rd.toReg, regName rs1.toReg, src2Name rd rs2, toString start, toString len, toString dest]
  | .addi rd rs1 imm    => [regName rd, regName rs1, toString imm.toInt]
  | .slli rd rs1 shamt  => [regName rd, regName rs1, toString shamt]
  | .srli rd rs1 shamt  => [regName rd, regName rs1, toString shamt]
  | .srai rd rs1 shamt  => [regName rd, regName rs1, toString shamt]
  | .or rd rs1 rs2      => [regName rd, regName rs1, regName rs2]
  | .lw rd rs1 imm      => [regName rd, baseOffset rs1 imm]
  | .sw rs2 rs1 imm     => [regName rs2, baseOffset rs1 imm]
  | .bne rs1 rs2 offset => [regName rs1, regName rs2, toString offset.toInt]
  | .jalr rd rs1 imm    => [regName rd, baseOffset rs1 imm]
  | .cSrai rd shamt     => [regName rd.toReg, toString shamt]
  | .cJr rs1            => [regName rs1]

/-- The assembly statement of an instruction: mnemonic, then the operands, comma-separated (R44). -/
def Instr.text (i : Instr) : String :=
  i.mnemonic ++ " " ++ ", ".intercalate i.operandTexts

/-- The pseudo-instruction `ret`: `c.jr ra` where compressed code is emitted, else `jalr x0, 0(ra)` (R71). -/
def ret (compressed : Bool) : Instr := if compressed then .cJr 1 else .jalr 0 1 0

/-! ### The opcode table, as the host numbers it -/

/-- A row of spec/opcode_table.json for `n`-bit instructions: a word belongs to the row when `word & mask = pattern`. -/
structure TableRow (n : Nat) where
  mnemonic : String
  mask     : BitVec n
  pattern  : BitVec n
  deriving DecidableEq, Repr

/-- The eleven 32-bit rows of the table. -/
def table32 : List (TableRow 32) :=
  [ ⟨"bfxp", 0x0000087F, 0x0000007B⟩, ⟨"bfxpc", 0x0000087F, 0x0000087B⟩, ⟨"addi", 0x0000707F, 0x00000013⟩,
    ⟨"slli", 0xFC00707F, 0x00001013⟩, ⟨"srli", 0xFC00707F, 0x00005013⟩, ⟨"srai", 0xFC00707F, 0x40005013⟩,
    ⟨"or", 0xFE00707F, 0x00006033⟩, ⟨"lw", 0x0000707F, 0x00002003⟩, ⟨"sw", 0x0000707F, 0x00002023⟩,
    ⟨"bne", 0x0000707F, 0x00001063⟩, ⟨"jalr", 0x0000707F, 0x00000067⟩ ]

/-- The two 16-bit rows of the table. -/
def table16 : List (TableRow 16) :=
  [ ⟨"c.srai", 0xEC03, 0x8401⟩, ⟨"c.jr", 0xF07F, 0x8002⟩ ]

/-- The mnemonics of the rows that a word belongs to. -/
def rowsOf : InstrWord → List String
  | .half p => (table16.filter fun r => p &&& r.mask == r.pattern).map TableRow.mnemonic
  | .full w => (table32.filter fun r => w &&& r.mask == r.pattern).map TableRow.mnemonic

/-- The bytes of a number, lowest address first (R21). -/
def bytesOfNat (w : Nat) : Nat → List Byte
  | 0     => []
  | n + 1 => BitVec.ofNat 8 w :: bytesOfNat (w / 256) n

/-- The instruction the decoder reads, on the machine of `Config.reset`, from four bytes that hold the low `nbits` bits of
`w` and zeros above them. -/
def decodeTableWord (nbits w : Nat) : Option Instr :=
  match decode Config.reset (bytesOfNat (w % 2 ^ nbits) 4) with
  | .ok (i, _) => some i
  | .error _   => none

end Sys2Proof
end

