-- ==== Sys2Proof/Machine/State.lean ====
section
/-!
DEFINITION. The state of the machine (R18) as plain data, what can stop it, and the state after reset.
-/

namespace Sys2Proof.Machine

/-- Memory: the bytes that differ from `unlistedByte`, by address (R16). -/
abbrev Memory := List Host.Cell

/-- The canonical form of memory: addresses strictly rising, and no entry equal to what an unlisted address reads as. -/
abbrev Memory.wf (m : Memory) : Prop :=
  m.Pairwise (fun c d => c.1 < d.1) ∧ ∀ c ∈ m, c.2 ≠ unlistedByte

/-- The outcome `Fault(E, p, v)` of R82, and what the fault record holds (R18): the exception E of R81, the address `pc` of the
instruction that raised it, and the recorded `value`, both as unsigned numbers.
Every one is safe against a real part that would run a handler and go on: the model stops there (D14). -/
inductive Fault where
  /-- Cause 0. The fetch step, when the pc is not a multiple of IALIGN/8; a taken `bne`, a `jalr` or a `c.jr`, when its target is not.
  Value: the misaligned address. Safe. -/
  | instructionAddressMisaligned (pc value : Nat)
  /-- Cause 1. The fetch step, when a parcel lies outside every text region. Value: the pc. Safe. -/
  | instructionAccessFault (pc value : Nat)
  /-- Cause 2. The decode step, for a word that is no instruction of this machine (every `Reject`). Value: the word. Safe. -/
  | illegalInstruction (pc value : Nat)
  /-- Cause 4. `lw`, when its address is not a multiple of 4. Value: the address. Safe. -/
  | loadAddressMisaligned (pc value : Nat)
  /-- Cause 5. `lw`, when its four bytes are not inside one region. Value: the address. Safe. -/
  | loadAccessFault (pc value : Nat)
  /-- Cause 6. `sw`, when its address is not a multiple of 4. Value: the address. Safe. -/
  | storeAddressMisaligned (pc value : Nat)
  /-- Cause 7. `sw`, when its four bytes are not inside one data region. Value: the address. Safe. -/
  | storeAccessFault (pc value : Nat)
  deriving DecidableEq, Repr

/-- What the model gives no meaning to. -/
inductive Refusal where
  /-- An arm of `exec` with no meaning yet; no arm is left so. Safe. -/
  | notModelled (mnemonic : String)
  deriving DecidableEq, Repr

/-- The architectural state of R18 for registers of `w` bits. x0 is not stored: it has no value of its own (R10). -/
structure Hart (w : Nat) where
  /-- x1 to x31, in this order. -/
  regs  : Vector (BitVec w) 31
  /-- The address of the instruction to run next (R13). -/
  pc    : BitVec w
  /-- Memory, text and data in one address space (R16). -/
  mem   : Memory
  /-- The fault record: none until a step faults, never cleared after (R18, R82). -/
  fault : Option Fault
  deriving DecidableEq, Repr

/-- The state: the parameters of the machine, which no step changes, and its hart. -/
structure State where
  cfg  : Config
  hart : Hart cfg.xlen.bits
  deriving DecidableEq, Repr

/-- The state a launch leaves (R90, R96): any register values, the launch image, pc = RESET_PC, no fault recorded.
The values the spec leaves unspecified are arguments, so that a claim can range over all of them. -/
def State.launch (cfg : Config) (regs : Vector (BitVec cfg.xlen.bits) 31) (image : Memory) : State where
  cfg  := cfg
  hart := { regs := regs, pc := BitVec.ofNat _ cfg.resetPc, mem := image, fault := none }

/-- The machine right after reset, with nothing placed (R18, R90).
DESIGN CHOICE (log 3): x1 to x31 are zero; the spec leaves them unspecified. The parameters are those of log 2. -/
def State.reset : State :=
  State.launch Config.reset (Vector.replicate 31 0) []

end Sys2Proof.Machine
end

