-- ==== Sys2Proof/Machine/Ops.lean ====
section
/-!
DEFINITION. The named operations over registers, pc, memory and regions; taking an exception.
There is no return from an exception: no instruction of the spec makes one and there is no handler to return from (R85).
-/

namespace Sys2Proof.Machine

/-- The outcome of an instruction on a hart. -/
abbrev HartOutcome (w : Nat) := Host.Outcome (Hart w) Fault Refusal

/-- An instruction's effect on the hart as a step of the whole state; the parameters stay. -/
def State.onHart (s : State) (f : Hart s.cfg.xlen.bits → HartOutcome s.cfg.xlen.bits) :
    Host.Outcome State Fault Refusal :=
  match f s.hart with
  | .next h    => .next ⟨s.cfg, h⟩
  | .fault e   => .fault e
  | .refused r => .refused r

/-! ### Registers and pc -/

/-- `x[r]`: x0 reads zero (R10). -/
def Hart.readReg {w : Nat} (h : Hart w) (r : Reg) : BitVec w :=
  if hr : r.val = 0 then 0 else h.regs[r.val - 1]

/-- `x[r] <- v`: a write to x0 is discarded (R10). -/
def Hart.writeReg {w : Nat} (h : Hart w) (r : Reg) (v : BitVec w) : Hart w :=
  if hr : r.val = 0 then h else { h with regs := h.regs.set (r.val - 1) v }

/-- `pc <- t`. -/
def Hart.setPc {w : Nat} (h : Hart w) (t : BitVec w) : Hart w := { h with pc := t }

/-- `pc <- pc + n`, modulo 2^XLEN (R13). -/
def Hart.advance {w : Nat} (h : Hart w) (n : Nat) : Hart w := h.setPc (h.pc + BitVec.ofNat w n)

/-- Memory replaced. -/
def Hart.setMem {w : Nat} (h : Hart w) (m : Memory) : Hart w := { h with mem := m }

/-! ### Memory -/

/-- The byte at an address. -/
def Memory.byte : Memory → Nat → Byte
  | [], _          => unlistedByte
  | (b, v) :: m, a => if a = b then v else Memory.byte m a

/-- One byte stored; the canonical form is kept. -/
def Memory.setByte (m : Memory) (a : Nat) (v : Byte) : Memory :=
  match m with
  | [] => if v = unlistedByte then [] else [(a, v)]
  | (b, u) :: rest =>
    if a < b then (if v = unlistedByte then (b, u) :: rest else (a, v) :: (b, u) :: rest)
    else if a = b then (if v = unlistedByte then rest else (a, v) :: rest)
    else (b, u) :: Memory.setByte rest a v

/-- `MemRead(addr, n)` as a `k`-bit value: bits 8i+7 to 8i are the byte at addr + i, addresses modulo 2^XLEN (R21, R23). -/
def Memory.read {w : Nat} (m : Memory) (addr : BitVec w) (k : Nat) : Nat → BitVec k
  | 0     => 0
  | n + 1 => Memory.read m addr k n ||| place k (m.byte (addr + BitVec.ofNat w n).toNat) (8 * n)

/-- `MemWrite(addr, n, v)`: bits 8i+7 to 8i of `v` go to addr + i, addresses modulo 2^XLEN (R23). -/
def Memory.write {w k : Nat} (m : Memory) (addr : BitVec w) (v : BitVec k) : Nat → Memory
  | 0     => m
  | n + 1 => (Memory.write m addr v n).setByte (addr + BitVec.ofNat w n).toNat (v.extractLsb' (8 * n) 8)

/-- Bytes placed from address `a` upwards: how a launch puts a program or data into memory (R96). -/
def Memory.place (m : Memory) (a : Nat) : List Byte → Memory
  | []      => m
  | b :: bs => Memory.place (m.setByte a b) (a + 1) bs

/-! ### Regions -/

/-- The `n` bytes from `a` lie wholly inside the region (R25). -/
def regionCovers (r : Region) (a n : Nat) : Bool :=
  decide (r.base ≤ a ∧ a + n ≤ r.base + r.size)

/-- A fetch of `n` bytes is allowed: they lie inside one text region (R25). -/
def mayFetch (cfg : Config) (a n : Nat) : Bool :=
  cfg.memmap.any fun r => r.kind == .text && regionCovers r a n

/-- A load of `n` bytes is allowed: they lie inside one region of either kind (R25). -/
def mayLoad (cfg : Config) (a n : Nat) : Bool :=
  cfg.memmap.any fun r => regionCovers r a n

/-- A store of `n` bytes is allowed: they lie inside one data region (R25, R28). -/
def mayStore (cfg : Config) (a n : Nat) : Bool :=
  cfg.memmap.any fun r => r.kind == .data && regionCovers r a n

/-- An address at which an instruction may stand: a multiple of IALIGN/8 (R22). -/
def instrAligned {w : Nat} (cfg : Config) (a : BitVec w) : Bool :=
  decide (a.toNat % cfg.ialignBytes = 0)

/-! ### Taking an exception -/

/-- `raise E(value)`: the step ends in `Fault(E, pc, value)` and changes no register, no pc and no memory (R5, R82). -/
def Hart.raise {w : Nat} (h : Hart w) (E : Nat → Nat → Fault) (value : BitVec w) : HartOutcome w :=
  .fault (E h.pc.toNat value.toNat)

/-- The fault record is set by the first fault and keeps it (R82, R85). -/
def Hart.recordFault {w : Nat} (h : Hart w) (e : Fault) : Hart w :=
  match h.fault with
  | none   => { h with fault := some e }
  | some _ => h

/-- The state a step leaves behind: after a fault, the state before it with the fault recorded and nothing else changed
(R82). The host's outcome of a fault holds no state; this is where the record is written. -/
def State.settle (s : State) : Host.Outcome State Fault Refusal → State
  | .next t    => t
  | .fault e   => ⟨s.cfg, s.hart.recordFault e⟩
  | .refused _ => s

/-- The exception's cause number, a label only (R81, D15). -/
def faultCode : Fault → Nat
  | .instructionAddressMisaligned _ _ => 0
  | .instructionAccessFault _ _       => 1
  | .illegalInstruction _ _           => 2
  | .loadAddressMisaligned _ _        => 4
  | .loadAccessFault _ _              => 5
  | .storeAddressMisaligned _ _       => 6
  | .storeAccessFault _ _             => 7

/-! ### Control transfer -/

/-- A control transfer to `t`: InstructionAddressMisaligned(t) on the transferring instruction when `t` is not a multiple of
IALIGN/8, else `pc <- t` (R22, R69, R70, R73). -/
def Hart.jumpTo {w : Nat} (cfg : Config) (h : Hart w) (t : BitVec w) : HartOutcome w :=
  if instrAligned cfg t then .next (h.setPc t)
  else h.raise .instructionAddressMisaligned t

end Sys2Proof.Machine
end

