-- ==== Sys2Proof/Machine/Operands.lean ====
section
/-!
DEFINITION. Every operand form: immediates, effective addresses, targets, the second source of the BF format, and the
bit-field function itself.
-/

namespace Sys2Proof.Machine

/-- `sext_XLEN(imm)` (R5, R61). -/
def sext (w : Nat) {n : Nat} (imm : BitVec n) : BitVec w := imm.signExtend w

/-- The one addressing mode of `lw` and `sw`: base register plus sign-extended 12-bit immediate (R67, R68). -/
def effectiveAddress {w : Nat} (h : Hart w) (rs1 : Reg) (imm : BitVec 12) : BitVec w :=
  h.readReg rs1 + sext w imm

/-- A branch target, relative to the branch itself (R69). -/
def branchTarget {w : Nat} (h : Hart w) (offset : BitVec 13) : BitVec w :=
  h.pc + sext w offset

/-- `v & ~1`: a jump target with its bit 0 cleared (R70, R73). -/
def clearBit0 {w : Nat} (v : BitVec w) : BitVec w := v &&& ~~~ 1#w

/-- The target of `jalr` (R70). -/
def jalrTarget {w : Nat} (h : Hart w) (rs1 : Reg) (imm : BitVec 12) : BitVec w :=
  clearBit0 (h.readReg rs1 + sext w imm)

/-- The link of `jalr`: the address after it (R70). -/
def linkAddress {w : Nat} (h : Hart w) : BitVec w := h.pc + BitVec.ofNat w 4

/-- The second source of `bfxp` and `bfxpc`: zero for x0, else what `rd` holds before the instruction (R37, R55). -/
def bfSecond {w : Nat} (h : Hart w) (rd : CReg) : Src2 → BitVec w
  | .zero => h.readReg 0
  | .rd   => h.readReg rd.toReg

/-- `ones(n)`: the value whose low `n` bits are 1, that is 2^n - 1 (R5). -/
def ones (w n : Nat) : BitVec w := BitVec.ofNat w (2 ^ n - 1)

/-- `BFXP(a, b, start, len, dest)` (R50): the field of `a` replaces the window of `b`, it is not OR-ed into it (C2, D6). -/
def bfxpValue {w : Nat} (a b : BitVec w) (start len dest : Nat) : BitVec w :=
  let mask  := ones w len
  let field := (a >>> start) &&& mask
  (b &&& ~~~ (mask <<< dest)) ||| (field <<< dest)

end Sys2Proof.Machine
end

