-- ==== Sys2Proof/Machine/Flags.lean ====
section
/-!
DEFINITION. Conditions. The machine has no flag, condition code or status register (R14), and no instruction computes one; the only
condition is the one `bne` tests on two registers.
-/

namespace Sys2Proof.Machine

/-- The condition of `bne` (R69). -/
def notEqual {w : Nat} (h : Hart w) (rs1 rs2 : Reg) : Bool :=
  h.readReg rs1 != h.readReg rs2

end Sys2Proof.Machine
end

