-- ==== Sys2Proof/Machine/BitField.lean ====
section
/-!
DEFINITION. The two instructions XBitfield defines: `bfxp` and `bfxpc`. Both sources are read before `rd` is written (R55).
-/

namespace Sys2Proof.Machine

/-- `bfxp` (R51). -/
def execBfxp (rd rs1 : CReg) (rs2 : Src2) (start len dest : Nat) (s : State) : Host.Outcome State Fault Refusal :=
  s.onHart fun h =>
    let a := h.readReg rs1.toReg
    let b := bfSecond h rd rs2
    .next ((h.writeReg rd.toReg (bfxpValue a b start len dest)).advance 4)

/-- `bfxpc` (R52): all XLEN bits of the first source are complemented before the field is extracted, the second source is not. -/
def execBfxpc (rd rs1 : CReg) (rs2 : Src2) (start len dest : Nat) (s : State) : Host.Outcome State Fault Refusal :=
  s.onHart fun h =>
    let a := ~~~ (h.readReg rs1.toReg)
    let b := bfSecond h rd rs2
    .next ((h.writeReg rd.toReg (bfxpValue a b start len dest)).advance 4)

end Sys2Proof.Machine
end

