-- ==== Sys2Proof/Machine/Control.lean ====
section
/-!
DEFINITION. The control transfers: `bne`, `jalr`, `c.jr`. There is no delay slot.
-/

namespace Sys2Proof.Machine

/-- `bne` (R69): a branch not taken never faults on its target. -/
def execBne (rs1 rs2 : Reg) (offset : BitVec 13) (s : State) : Host.Outcome State Fault Refusal :=
  s.onHart fun h =>
    if notEqual h rs1 rs2 then h.jumpTo s.cfg (branchTarget h offset)
    else .next (h.advance 4)

/-- `jalr` (R70): the target and the link are taken from the state before the instruction; a misaligned target writes no link. -/
def execJalr (rd rs1 : Reg) (imm : BitVec 12) (s : State) : Host.Outcome State Fault Refusal :=
  s.onHart fun h => (h.writeReg rd (linkAddress h)).jumpTo s.cfg (jalrTarget h rs1 imm)

/-- `c.jr` (R73). -/
def execCJr (rs1 : Reg) (s : State) : Host.Outcome State Fault Refusal :=
  s.onHart fun h => h.jumpTo s.cfg (clearBit0 (h.readReg rs1))

end Sys2Proof.Machine
end

