-- ==== Sys2Proof/Machine/Integer.lean ====
section
/-!
DEFINITION. The integer computational instructions: `addi`, `slli`, `srli`, `srai`, `or`, `c.srai`.
-/

namespace Sys2Proof.Machine

/-- `addi` (R62): modulo 2^XLEN. -/
def execAddi (rd rs1 : Reg) (imm : BitVec 12) (s : State) : Host.Outcome State Fault Refusal :=
  s.onHart fun h => .next ((h.writeReg rd (h.readReg rs1 + sext _ imm)).advance 4)

/-- `slli` (R63). -/
def execSlli (rd rs1 : Reg) (shamt : Nat) (s : State) : Host.Outcome State Fault Refusal :=
  s.onHart fun h => .next ((h.writeReg rd (h.readReg rs1 <<< shamt)).advance 4)

/-- `srli` (R64). -/
def execSrli (rd rs1 : Reg) (shamt : Nat) (s : State) : Host.Outcome State Fault Refusal :=
  s.onHart fun h => .next ((h.writeReg rd (h.readReg rs1 >>> shamt)).advance 4)

/-- `srai` (R65). -/
def execSrai (rd rs1 : Reg) (shamt : Nat) (s : State) : Host.Outcome State Fault Refusal :=
  s.onHart fun h => .next ((h.writeReg rd ((h.readReg rs1).sshiftRight shamt)).advance 4)

/-- `or` (R66). -/
def execOr (rd rs1 rs2 : Reg) (s : State) : Host.Outcome State Fault Refusal :=
  s.onHart fun h => .next ((h.writeReg rd (h.readReg rs1 ||| h.readReg rs2)).advance 4)

/-- `c.srai` (R72): `srai rd, rd, shamt`, two bytes long. -/
def execCSrai (rd : CReg) (shamt : Nat) (s : State) : Host.Outcome State Fault Refusal :=
  s.onHart fun h => .next ((h.writeReg rd.toReg ((h.readReg rd.toReg).sshiftRight shamt)).advance 2)

end Sys2Proof.Machine
end

