-- ==== Sys2Proof/Machine/LoadStore.lean ====
section
/-!
DEFINITION. The load and the store: `lw`, `sw`. Alignment is checked before access (R84).
-/

namespace Sys2Proof.Machine

/-- `lw` (R24, R67): the word is sign-extended to XLEN. -/
def execLw (rd rs1 : Reg) (imm : BitVec 12) (s : State) : Host.Outcome State Fault Refusal :=
  s.onHart fun h =>
    let addr := effectiveAddress h rs1 imm
    if addr.toNat % 4 ≠ 0 then h.raise .loadAddressMisaligned addr
    else if mayLoad s.cfg addr.toNat 4 then
      .next ((h.writeReg rd (sext _ (h.mem.read addr 32 4))).advance 4)
    else h.raise .loadAccessFault addr

/-- `sw` (R24, R28, R68): the low 32 bits of the source are stored. -/
def execSw (rs2 rs1 : Reg) (imm : BitVec 12) (s : State) : Host.Outcome State Fault Refusal :=
  s.onHart fun h =>
    let addr := effectiveAddress h rs1 imm
    if addr.toNat % 4 ≠ 0 then h.raise .storeAddressMisaligned addr
    else if mayStore s.cfg addr.toNat 4 then
      .next ((h.setMem (h.mem.write addr (h.readReg rs2) 4)).advance 4)
    else h.raise .storeAccessFault addr

end Sys2Proof.Machine
end

