-- ==== Sys2Proof/Machine/Dispatch.lean ====
section
/-!
DEFINITION. One arm per instruction.
-/

namespace Sys2Proof.Machine

/-- The effect of a decoded instruction. The decoder yields well-formed instructions only; on any other term the answer says
nothing about the hardware (log 9). -/
def exec (i : Instr) (s : State) : Host.Outcome State Fault Refusal :=
  match i with
  | .bfxp rd rs1 rs2 start len dest => Sys2Proof.Machine.execBfxp rd rs1 rs2 start len dest s
  | .bfxpc rd rs1 rs2 start len dest => Sys2Proof.Machine.execBfxpc rd rs1 rs2 start len dest s
  | .addi rd rs1 imm => Sys2Proof.Machine.execAddi rd rs1 imm s
  | .slli rd rs1 shamt => Sys2Proof.Machine.execSlli rd rs1 shamt s
  | .srli rd rs1 shamt => Sys2Proof.Machine.execSrli rd rs1 shamt s
  | .srai rd rs1 shamt => Sys2Proof.Machine.execSrai rd rs1 shamt s
  | .or rd rs1 rs2 => Sys2Proof.Machine.execOr rd rs1 rs2 s
  | .lw rd rs1 imm => Sys2Proof.Machine.execLw rd rs1 imm s
  | .sw rs2 rs1 imm => Sys2Proof.Machine.execSw rs2 rs1 imm s
  | .bne rs1 rs2 offset => Sys2Proof.Machine.execBne rs1 rs2 offset s
  | .jalr rd rs1 imm => Sys2Proof.Machine.execJalr rd rs1 imm s
  | .cSrai rd shamt => Sys2Proof.Machine.execCSrai rd shamt s
  | .cJr rs1 => Sys2Proof.Machine.execCJr rs1 s

end Sys2Proof.Machine
end

