-- ==== Sys2Proof/Machine/Fetch.lean ====
section
/-!
DEFINITION. The fetch step (R29): alignment, the parcels, the length rule, decoding; and placing an instruction where the
next fetch reads it.
-/

namespace Sys2Proof.Machine

/-- The 16-bit parcel at an address (R21). -/
def parcelAt {w : Nat} (m : Memory) (a : BitVec w) : BitVec 16 := m.read a 16 2

/-- Steps (1) and (2) of R29: the instruction word at the pc. Both parcel reads report InstructionAccessFault(pc). When HAS_C is
false a parcel that begins no 32-bit word is handed on as it is, and the decoder rejects it. -/
def fetch {w : Nat} (cfg : Config) (h : Hart w) : Except Fault InstrWord :=
  let pc := h.pc.toNat
  if !instrAligned cfg h.pc then .error (.instructionAddressMisaligned pc pc)
  else if !mayFetch cfg pc 2 then .error (.instructionAccessFault pc pc)
  else
    let p0 := parcelAt h.mem h.pc
    let next := h.pc + BitVec.ofNat w 2
    if isHalf p0 then .ok (.half p0)
    else if !mayFetch cfg next.toNat 2 then .error (.instructionAccessFault pc pc)
    else .ok (.full (wordOf p0 (parcelAt h.mem next)))

/-- Steps (1) to (3) of R29: the instruction at the pc, or the one fault that the order of R84 reports. -/
def fetchDecode {w : Nat} (cfg : Config) (h : Hart w) : Except Fault Instr :=
  match fetch cfg h with
  | .error e => .error e
  | .ok word =>
    match decodeWord cfg word with
    | .ok i    => .ok i
    | .error _ => .error (.illegalInstruction h.pc.toNat word.toNat)

/-- Four bytes placed at the pc: the low `nbits` bits of `v` and zeros above them. This stands for the launch (R96), which places
program bytes in text; no instruction can. -/
def placeAtPc {w : Nat} (h : Hart w) (nbits v : Nat) : Hart w :=
  h.setMem (h.mem.write h.pc (BitVec.ofNat 32 (v % 2 ^ nbits)) 4)

end Sys2Proof.Machine
end

