-- ==== Sys2Proof/Machine/Step.lean ====
section
/-!
DEFINITION. One step of the hart.
-/

namespace Sys2Proof.Machine

/-- One step (R29). A hart with a fault recorded takes no step: its outcome stays the recorded fault (R82). -/
def step (s : State) : Host.Outcome State Fault Refusal :=
  match s.hart.fault with
  | some e => .fault e
  | none =>
    match fetchDecode s.cfg s.hart with
    | .error e => .fault e
    | .ok i    => exec i s

/-- The state that one step leaves behind, the fault record written where the step faults (R82). -/
def stepState (s : State) : State := s.settle (step s)

/-- The state with an instruction's bits stored where the next step fetches. -/
def State.withFetchWord (s : State) (nbits w : Nat) : State :=
  ⟨s.cfg, placeAtPc s.hart nbits w⟩

end Sys2Proof.Machine
end

