-- ==== Sys2Proof/Machine/Examples.lean ====
section
/-!
DEFINITION. The source's four example routines (95_test_vectors.md section 1), as data and as arithmetic on values. The last
`bfxp` of each has no encoding in the 32-bit format (C1), so no step can run it: each statement is evaluated with the
function `BFXP` on values, its second source any register (D22, R56).
-/

namespace Sys2Proof.Machine

/-- An assembly statement `bfxp rd, rs1, rs2, start, len, dest` (R44), encodable or not. -/
structure BfStatement where
  rd    : Reg
  rs1   : Reg
  rs2   : Reg
  start : Nat
  len   : Nat
  dest  : Nat
  deriving DecidableEq, Repr

/-- A routine: its `bfxp` statements, then `c.srai a0, shamt`, then `ret`. -/
structure Routine where
  statements : List BfStatement
  shamt      : Nat
  deriving DecidableEq, Repr

/-- `x[rd] <- BFXP(x[rs1], x[rs2], start, len, dest)`, on values alone (D22). -/
def evalStatement {w : Nat} (h : Hart w) (b : BfStatement) : Hart w :=
  h.writeReg b.rd (bfxpValue (h.readReg b.rs1) (h.readReg b.rs2) b.start b.len b.dest)

/-- What the routine leaves in `a0`, from the registers it starts with. -/
def Routine.result {w : Nat} (r : Routine) (h : Hart w) : BitVec w :=
  ((r.statements.foldl evalStatement h).readReg 10).sshiftRight r.shamt

/-- The word of a statement, and none where it has no encoding (R45). -/
def BfStatement.word (x : Xlen) (b : BfStatement) : Option InstrWord :=
  (assembleBf x false b.rd b.rs1 b.rs2 b.start b.len b.dest).map encode

/-- `decode_s`. -/
def decodeSRoutine : Routine where
  statements := [⟨11, 10, 0, 7, 5, 20⟩, ⟨10, 10, 11, 25, 7, 25⟩]
  shamt := 20

/-- `decode_b`. -/
def decodeBRoutine : Routine where
  statements :=
    [⟨11, 10, 0, 7, 1, 30⟩, ⟨11, 10, 11, 25, 6, 24⟩, ⟨11, 10, 11, 8, 4, 20⟩, ⟨10, 10, 11, 31, 1, 31⟩]
  shamt := 19

/-- `decode_j`. -/
def decodeJRoutine : Routine where
  statements :=
    [⟨11, 10, 0, 21, 10, 12⟩, ⟨11, 10, 11, 20, 1, 22⟩, ⟨11, 10, 11, 12, 8, 23⟩, ⟨10, 10, 11, 31, 1, 31⟩]
  shamt := 11

/-- `decode_cj`. -/
def decodeCJRoutine : Routine where
  statements :=
    [⟨11, 10, 0, 11, 1, 24⟩, ⟨11, 10, 11, 9, 2, 28⟩, ⟨11, 10, 11, 8, 1, 30⟩, ⟨11, 10, 11, 7, 1, 26⟩,
     ⟨11, 10, 11, 6, 1, 27⟩, ⟨11, 10, 11, 3, 3, 21⟩, ⟨11, 10, 11, 2, 1, 25⟩, ⟨10, 10, 11, 12, 1, 31⟩]
  shamt := 20

end Sys2Proof.Machine
end

