-- ==== Sys2Proof/Safety.lean ====
section
/-!
DEFINITION. What claims about runs are stated in: the end of a run, the invariant, the rule of text.
-/

namespace Sys2Proof.Machine

/-- A final state: pc = HALT_PC, and no fault recorded (R95). -/
abbrev State.Final (s : State) : Prop :=
  s.hart.pc = BitVec.ofNat _ s.cfg.haltPc ∧ s.hart.fault = none

/-- How a run of at most `n` steps ends. -/
inductive RunEnd where
  /-- After a step, pc = HALT_PC (R95). -/
  | final (s : State)
  /-- A step faulted; the state has the fault recorded and is never final (R82, R95). -/
  | faulted (s : State)
  /-- A step was refused. -/
  | refused (r : Refusal)
  /-- The steps are used up. -/
  | running (s : State)
  deriving DecidableEq, Repr

/-- A run (R95): it ends when, after a step, pc = HALT_PC; no fetch is attempted there. -/
def run : Nat → State → RunEnd
  | 0, s => .running s
  | n + 1, s =>
    match step s with
    | .next t    => if t.Final then .final t else run n t
    | .fault e   => .faulted (s.settle (.fault e))
    | .refused r => .refused r

/-- The invariant of the machine: memory is in its canonical form and lists XLEN-bit addresses only (R16), and the pc is
a multiple of IALIGN/8 (R13, R22). -/
abbrev State.Inv (s : State) : Prop :=
  s.hart.mem.wf ∧
  (∀ c ∈ s.hart.mem, c.1 < 2 ^ s.cfg.xlen.bits) ∧
  s.hart.pc.toNat % s.cfg.ialignBytes = 0

/-- An instruction word stands at the pc of a hart that takes steps: no fault is recorded, the pc is aligned, the word's bytes are
at the pc, and each of its parcels lies in a text region (R21, R22, R25, R29), not both in the same one (log 13). -/
abbrev Standing {w : Nat} (cfg : Config) (h : Hart w) (iw : InstrWord) : Prop :=
  h.fault = none ∧
  h.pc.toNat % cfg.ialignBytes = 0 ∧
  iw.lengthOk = true ∧
  (∀ k < iw.length, some (h.mem.byte (h.pc + BitVec.ofNat w k).toNat) = iw.bytes[k]?) ∧
  cfg.Inside (some .text) h.pc.toNat 2 ∧
  (iw.length = 4 → cfg.Inside (some .text) (h.pc + BitVec.ofNat w 2).toNat 2)

/-- From `h` to `h'`: register `rd` holds `v` (x0 stays zero), the pc is `pc'`, and nothing else has changed. -/
abbrev RegisterOnly {w : Nat} (h h' : Hart w) (rd : Reg) (v pc' : BitVec w) : Prop :=
  h'.readReg rd = (if rd = 0 then 0 else v) ∧
  (∀ r, r ≠ rd → h'.readReg r = h.readReg r) ∧
  h'.pc = pc' ∧
  (∀ a, h'.mem.byte a = h.mem.byte a) ∧
  h'.fault = h.fault

/-- From `h` to `h'`: the pc is `pc'`, and nothing else has changed. -/
abbrev PcOnly {w : Nat} (h h' : Hart w) (pc' : BitVec w) : Prop :=
  (∀ r, h'.readReg r = h.readReg r) ∧
  h'.pc = pc' ∧
  (∀ a, h'.mem.byte a = h.mem.byte a) ∧
  h'.fault = h.fault

end Sys2Proof.Machine
end

