-- ==== Sys2Proof/Certificates/Slice0/Obligations.lean ====
section
/-!
DEFINITION. The statements for the provers. Rules are those of spec/. Where the spec marks a rule as its own derivation, or where
a clause rests on a choice of the model's log, the docstring says so and the statement's basis is 'derived'.
-/

open Sys2Proof Sys2Proof.Machine

/-! ### Encoding -/

/-- Twelve words that 95_test_vectors.md writes out in its sections 1, 2 and 4, one or more of every family, decode to the
instructions it names; the thirteenth decoding is 0x0081857B again on RV32, reserved by 30_encoding.md section 4. The two 16-bit
words are decoded with the parameters of Config.reset, which has HAS_C (log 2). -/
def Obligations.SpecWordsDecode : Prop :=
  decode32 .rv32 0x755101FB#32 = .ok (.bfxp 3 2 .zero 7 5 20) ∧
  decode32 .rv64 0x0081857B#32 = .ok (.bfxp 2 3 .rd 0 32 32) ∧
  decode32 .rv32 0x0081857B#32 = .error .lenFieldZero ∧
  decode32 .rv32 0x88418D7B#32 = .ok (.bfxpc 2 3 .rd 8 8 16) ∧
  decode32 .rv32 0xFFF68693#32 = .ok (.addi 13 13 (-1)) ∧
  decode32 .rv32 0x4145D513#32 = .ok (.srai 10 11 20) ∧
  decode32 .rv32 0x00B56533#32 = .ok (.or 10 10 11) ∧
  decode32 .rv32 0x00062503#32 = .ok (.lw 10 12 0) ∧
  decode32 .rv32 0xFE512623#32 = .ok (.sw 5 2 (-20)) ∧
  decode32 .rv32 0xFE0696E3#32 = .ok (.bne 13 0 (-20)) ∧
  decode32 .rv32 0x00008067#32 = .ok (.jalr 0 1 0) ∧
  decode16 Config.reset 0x8551#16 = .ok (.cSrai 2 20) ∧
  decode16 Config.reset 0x8082#16 = .ok (.cJr 1)

/-- Decoding the bytes of an encoded well-formed instruction, whatever bytes follow, gives it back with every operand. -/
def Obligations.DecodeOfEncodedInstruction : Prop :=
  ∀ (cfg : Config) (i : Instr) (rest : List Byte), i.wellFormed cfg = true →
    decode cfg ((encode i).bytes ++ rest) = .ok (i, rest)

/-- The decoder yields well-formed instructions only, and a decoded word is its instruction's encoding: no bit is ignored. For
custom-3 words 30_encoding.md section 5 says so; for the support instructions it follows from the layouts of 41_base_subset.md. -/
def Obligations.DecodedWordIsItsEncoding : Prop :=
  ∀ (cfg : Config) (iw : InstrWord) (i : Instr), decodeWord cfg iw = .ok i →
    i.wellFormed cfg = true ∧ encode i = iw

/-- A decoded word belongs to exactly one row of the opcode table, its instruction's own. -/
def Obligations.DecodedWordHasOneTableRow : Prop :=
  ∀ (cfg : Config) (iw : InstrWord) (i : Instr), decodeWord cfg iw = .ok i → rowsOf iw = [i.mnemonic]

/-- R33, R35, R36: the len field, the selector bit 11 and the two register fields of an accepted custom-3 word, with the word
read as a number. Every accepted length is 1 to 31 on RV32 and 1 to 32 on RV64, and field 0 is rejected on RV32. -/
def Obligations.BfFieldsOfDecodedWord : Prop :=
  ∀ (x : Xlen) (w : BitVec 32), w.extractLsb' 0 7 = 0b1111011#7 →
    let n := w.toNat
    let lenf := n / 2 ^ 12 % 2 * 16 + n / 2 ^ 24 % 16
    (x = .rv32 → lenf = 0 → ∃ r, decode32 x w = .error r) ∧
    ∀ i, decode32 x w = .ok i →
      ∃ (rd rs1 : CReg) (rs2 : Src2) (start len dest : Nat),
        i = (if n / 2 ^ 11 % 2 = 0 then Instr.bfxp else Instr.bfxpc) rd rs1 rs2 start len dest ∧
        rd.toReg.val = 8 + n / 2 ^ 7 % 8 ∧
        rs1.toReg.val = 8 + n / 2 ^ 15 % 8 ∧
        (rs2 = .rd ↔ n / 2 ^ 10 % 2 = 1) ∧
        start = n / 2 ^ 13 % 4 * 16 + n / 2 ^ 28 ∧
        len = (if lenf = 0 then 32 else lenf) ∧
        dest = n / 2 ^ 18 % 64 ∧
        1 ≤ len ∧ len ≤ (if x = .rv32 then 31 else 32)

/-- R38: a custom-3 word is neither `bfxp` nor `bfxpc` exactly when (a), (b) or (c) holds; sums are of natural numbers. -/
def Obligations.ReservedExactlyWhenWindowLeavesRegister : Prop :=
  ∀ (x : Xlen) (w : BitVec 32), w.extractLsb' 0 7 = 0b1111011#7 →
    let n := w.toNat
    let lenf := n / 2 ^ 12 % 2 * 16 + n / 2 ^ 24 % 16
    let start := n / 2 ^ 13 % 4 * 16 + n / 2 ^ 28
    let dest := n / 2 ^ 18 % 64
    let len := if lenf = 0 then 32 else lenf
    ((∃ r, decode32 x w = .error r) ↔
      (x = .rv32 ∧ lenf = 0) ∨ start + len > x.bits ∨ dest + len > x.bits)

/-- R39: on RV32 a custom-3 word with bit 14 or bit 23 set is reserved. -/
def Obligations.Rv32HighImmediateBitsReserved : Prop :=
  ∀ w : BitVec 32, w.extractLsb' 0 7 = 0b1111011#7 → w.getLsbD 14 = true ∨ w.getLsbD 23 = true →
    ∃ r, decode32 .rv32 w = .error r

/-- The source's remark on funct3 = 111, and its like on RV32 (30_encoding.md section 4; the spec marks the RV32 part as derived):
with bits 14:12 all set an RV64 word is reserved if any of bits 31:24 is set, and otherwise legal exactly when dest ≤ 48; on RV32
every word with bit 14 set, and every word with bits 13:12 set and any of bits 31:24 set, is reserved. -/
def Obligations.Funct3AllOnesCorner : Prop :=
  ∀ w : BitVec 32, w.extractLsb' 0 7 = 0b1111011#7 →
    (w.extractLsb' 12 3 = 0b111#3 → w.extractLsb' 24 8 ≠ 0#8 → ∃ r, decode32 .rv64 w = .error r) ∧
    (w.extractLsb' 12 3 = 0b111#3 → w.extractLsb' 24 8 = 0#8 →
      ((∃ i, decode32 .rv64 w = .ok i) ↔ (w.extractLsb' 18 6).toNat ≤ 48)) ∧
    (w.getLsbD 14 = true → ∃ r, decode32 .rv32 w = .error r) ∧
    (w.extractLsb' 12 2 = 0b11#2 → w.extractLsb' 24 8 ≠ 0#8 → ∃ r, decode32 .rv32 w = .error r)

/-- Every custom-3 word legal on RV32 is legal on RV64 with the same operands, and 0x0000007B shows that the converse fails
(30_encoding.md section 5; the spec marks it as derived). -/
def Obligations.Rv32BfWordsMeanTheSameOnRv64 : Prop :=
  (∀ (w : BitVec 32) (i : Instr), w.extractLsb' 0 7 = 0b1111011#7 →
    decode32 .rv32 w = .ok i → decode32 .rv64 w = .ok i) ∧
  (∃ i, decode32 .rv64 0x0000007B#32 = .ok i) ∧ (∃ r, decode32 .rv32 0x0000007B#32 = .error r)

/-- Of the 131072 settings of start, len field and dest, 11439 are legal on RV32 and 78000 on RV64 (30_encoding.md section 5; the
spec marks the counts as derived). The word is built from the settings with the register fields, bit 10 and bit 11 zero. -/
def Obligations.LegalImmediateSettingsCounted : Prop :=
  let word (s l d : Nat) : BitVec 32 :=
    BitVec.ofNat 32 (0x7B + l / 16 * 2 ^ 12 + s / 16 * 2 ^ 13 + d * 2 ^ 18 + l % 16 * 2 ^ 24 + s % 16 * 2 ^ 28)
  let legal (x : Xlen) (p : Fin 64 × Fin 32 × Fin 64) : Prop :=
    ∃ i, decode32 x (word p.1 p.2.1 p.2.2) = .ok i
  Nat.card {p // legal .rv32 p} = 11439 ∧ Nat.card {p // legal .rv64 p} = 78000

/-- A statement has a BF-format encoding exactly when its operands meet the listed conditions, and then its word is the listed
sum (30_encoding.md section 7; the spec marks the rule as derived). -/
def Obligations.AssemblesExactlyWhenEncodable : Prop :=
  ∀ (x : Xlen) (comp : Bool) (rd rs1 rs2 : Reg) (start len dest : Nat),
    ((assembleBf x comp rd rs1 rs2 start len dest).isSome = true ↔
      (8 ≤ rd.val ∧ rd.val ≤ 15) ∧ (8 ≤ rs1.val ∧ rs1.val ≤ 15) ∧ (rs2 = 0 ∨ rs2 = rd) ∧
      1 ≤ len ∧ len ≤ (if x = .rv32 then 31 else 32) ∧ start + len ≤ x.bits ∧ dest + len ≤ x.bits) ∧
    ∀ i, assembleBf x comp rd rs1 rs2 start len dest = some i →
      ∃ w : BitVec 32, encode i = .full w ∧ decode32 x w = .ok i ∧
        w.toNat = 0x7B + (rd.val - 8) * 2 ^ 7 + (if rs2 = rd then 1 else 0) * 2 ^ 10 + (if comp then 1 else 0) * 2 ^ 11 +
          len % 32 / 16 * 2 ^ 12 + start / 16 * 2 ^ 13 + (rs1.val - 8) * 2 ^ 15 + dest * 2 ^ 18 +
          len % 16 * 2 ^ 24 + start % 16 * 2 ^ 28

/-- R49: the four immediates as the figure lays them out, from a 32-bit word (S, B, J) or a 16-bit word (CJ), and their signs. -/
def Obligations.ImmediatesFollowTheFigure : Prop :=
  (∀ w : BitVec 32,
    let n := w.toNat
    (immS w).toInt = ((n / 2 ^ 25 * 2 ^ 5 + n / 2 ^ 7 % 2 ^ 5 : Nat) : Int) - (n / 2 ^ 31 * 2 ^ 12 : Nat) ∧
    (immB w).toInt = ((n / 2 ^ 31 * 2 ^ 12 + n / 2 ^ 7 % 2 * 2 ^ 11 + n / 2 ^ 25 % 2 ^ 6 * 2 ^ 5 +
      n / 2 ^ 8 % 2 ^ 4 * 2 : Nat) : Int) - (n / 2 ^ 31 * 2 ^ 13 : Nat) ∧
    (immJ w).toInt = ((n / 2 ^ 31 * 2 ^ 20 + n / 2 ^ 12 % 2 ^ 8 * 2 ^ 12 + n / 2 ^ 20 % 2 * 2 ^ 11 +
      n / 2 ^ 21 % 2 ^ 10 * 2 : Nat) : Int) - (n / 2 ^ 31 * 2 ^ 21 : Nat)) ∧
  (∀ p : BitVec 16,
    let n := p.toNat
    (immCJ p).toInt = ((n / 2 ^ 12 % 2 * 2 ^ 11 + n / 2 ^ 8 % 2 * 2 ^ 10 + n / 2 ^ 9 % 2 ^ 2 * 2 ^ 8 + n / 2 ^ 6 % 2 * 2 ^ 7 +
      n / 2 ^ 7 % 2 * 2 ^ 6 + n / 2 ^ 2 % 2 * 2 ^ 5 + n / 2 ^ 11 % 2 * 2 ^ 4 + n / 2 ^ 3 % 2 ^ 3 * 2 : Nat) : Int) -
      (n / 2 ^ 12 % 2 * 2 ^ 12 : Nat))

/-! ### The bit-field function -/

/-- R50: `BFXP(a, b, start, len, dest)` bit by bit. -/
def Obligations.BfxpBitByBit : Prop :=
  ∀ (x : Xlen) (a b : BitVec x.bits) (start len dest : Nat),
    1 ≤ len → start + len ≤ x.bits → dest + len ≤ x.bits →
    ∀ i < x.bits, (bfxpValue a b start len dest).getLsbD i =
      if dest ≤ i ∧ i < dest + len then a.getLsbD (i - dest + start) else b.getLsbD i

/-- The shift form, "3 shift-immediate operations and one OR", valid when the window of `b` is zero (40_bitfield.md section 4, law 3;
derived in the spec). -/
def Obligations.ShiftFormWhenWindowIsZero : Prop :=
  ∀ (x : Xlen) (a b : BitVec x.bits) (s l d : Nat),
    1 ≤ l → s + l ≤ x.bits → d + l ≤ x.bits → (∀ i, d ≤ i → i < d + l → b.getLsbD i = false) →
    bfxpValue a b s l d = (((a <<< (x.bits - s - l)) >>> (x.bits - l)) <<< d) ||| b

/-- Plain extract, insert, idempotence and complement (40_bitfield.md section 4, laws 1, 2, 4, 5, 6, 7; derived in the spec). -/
def Obligations.ExtractInsertAndComplementLaws : Prop :=
  ∀ (x : Xlen) (a b : BitVec x.bits) (s l d : Nat),
    1 ≤ l → s + l ≤ x.bits → d + l ≤ x.bits →
    (bfxpValue a b s l d).extractLsb' d l = a.extractLsb' s l ∧
    (bfxpValue a 0 s l 0 = (a.extractLsb' s l).setWidth x.bits) ∧
    ((bfxpValue a b 0 l d).extractLsb' d l = a.setWidth l ∧
      ∀ i, i < d ∨ d + l ≤ i → (bfxpValue a b 0 l d).getLsbD i = b.getLsbD i) ∧
    bfxpValue a (bfxpValue a b s l d) s l d = bfxpValue a b s l d ∧
    bfxpValue (~~~ a) b s l d = bfxpValue a b s l d ^^^ (ones x.bits l <<< d)

/-- Fields placed into windows that do not overlap may be placed in either order (40_bitfield.md section 4, law 8; derived). -/
def Obligations.DisjointPlacementsCommute : Prop :=
  ∀ (x : Xlen) (a1 a2 b : BitVec x.bits) (s1 l1 d1 s2 l2 d2 : Nat),
    1 ≤ l1 → s1 + l1 ≤ x.bits → d1 + l1 ≤ x.bits →
    1 ≤ l2 → s2 + l2 ≤ x.bits → d2 + l2 ≤ x.bits →
    d1 + l1 ≤ d2 ∨ d2 + l2 ≤ d1 →
    bfxpValue a2 (bfxpValue a1 b s1 l1 d1) s2 l2 d2 = bfxpValue a1 (bfxpValue a2 b s2 l2 d2) s1 l1 d1

/-- Within 32 bits the RV64 result is the RV32 result below and `b` above (40_bitfield.md section 4, law 9; derived). -/
def Obligations.LowHalfAgreesAcrossXlen : Prop :=
  ∀ (a b : BitVec 64) (s l d : Nat), 1 ≤ l → s + l ≤ 32 → d + l ≤ 32 →
    (bfxpValue a b s l d).setWidth 32 = bfxpValue (a.setWidth 32) (b.setWidth 32) s l d ∧
    (bfxpValue a b s l d).extractLsb' 32 32 = b.extractLsb' 32 32

/-- The source's four routines, evaluated on values whatever else the registers hold: on RV32 each returns the immediate of the word
in `a0`, sign-extended; on RV64 the same immediate zero-extended, from the low half of `a0` (95_test_vectors.md section 1 and
90_conflicts.md C6; derived in the spec). -/
def Obligations.RoutinesDecodeImmediates : Prop :=
  (∀ h : Hart 32,
    let w := h.readReg 10
    decodeSRoutine.result h = (immS w).signExtend 32 ∧ decodeBRoutine.result h = (immB w).signExtend 32 ∧
    decodeJRoutine.result h = (immJ w).signExtend 32 ∧ decodeCJRoutine.result h = (immCJ (w.setWidth 16)).signExtend 32) ∧
  (∀ h : Hart 64,
    let w := (h.readReg 10).setWidth 32
    decodeSRoutine.result h = (immS w).setWidth 64 ∧ decodeBRoutine.result h = (immB w).setWidth 64 ∧
    decodeJRoutine.result h = (immJ w).setWidth 64 ∧ decodeCJRoutine.result h = (immCJ (w.setWidth 16)).setWidth 64)

/-! ### Each instruction: its words, its effect, what it leaves unchanged -/

/-- R51: `bfxp`. A word of its mask and match decodes to it, or raises IllegalInstruction when it is reserved; the instruction
always completes, writes the function of R50 to `rd` and nothing else, and goes to pc + 4; the rule's example. -/
def Obligations.BfxpPlacesTheField : Prop :=
  (∀ (cfg : Config) (h : Hart cfg.xlen.bits) (w : BitVec 32), w &&& 0x0000087F#32 = 0x0000007B#32 →
    let start := (w.extractLsb' 13 2).toNat * 16 + (w.extractLsb' 28 4).toNat
    let lenf := (w.extractLsb' 12 1).toNat * 16 + (w.extractLsb' 24 4).toNat
    let len := if lenf = 0 then 32 else lenf
    let dest := (w.extractLsb' 18 6).toNat
    (¬ (cfg.xlen = .rv32 ∧ lenf = 0) → start + len ≤ cfg.xlen.bits → dest + len ≤ cfg.xlen.bits →
      decode32 cfg.xlen w = .ok (.bfxp (cregOf (w.extractLsb' 7 3)) (cregOf (w.extractLsb' 15 3))
        (if w.getLsbD 10 = true then .rd else .zero) start len dest)) ∧
    ((cfg.xlen = .rv32 ∧ lenf = 0) ∨ start + len > cfg.xlen.bits ∨ dest + len > cfg.xlen.bits →
      Standing cfg h (.full w) → step ⟨cfg, h⟩ = .fault (.illegalInstruction h.pc.toNat w.toNat))) ∧
  (∀ (cfg : Config) (h : Hart cfg.xlen.bits) (rd rs1 : CReg) (rs2 : Src2) (start len dest : Nat),
    cfg.xlen.BfLegal start len dest →
    ∃ h' v, exec (.bfxp rd rs1 rs2 start len dest) ⟨cfg, h⟩ = .next ⟨cfg, h'⟩ ∧
      RegisterOnly h h' rd.toReg v (h.pc + 4#_) ∧
      ∀ i < cfg.xlen.bits, v.getLsbD i =
        if dest ≤ i ∧ i < dest + len then (h.readReg rs1.toReg).getLsbD (i - dest + start)
        else (decide (rs2 = .rd) && (h.readReg rd.toReg).getLsbD i)) ∧
  decode32 .rv32 0x8841857B#32 = .ok (.bfxp 2 3 .rd 8 8 16) ∧
  bfxpValue 0xAABBCCDD#32 0x12345678#32 8 8 16 = 0x12CC5678#32

/-- R52: `bfxpc`, the same with all bits of the first source complemented before the extraction. -/
def Obligations.BfxpcPlacesTheComplement : Prop :=
  (∀ (cfg : Config) (h : Hart cfg.xlen.bits) (w : BitVec 32), w &&& 0x0000087F#32 = 0x0000087B#32 →
    let start := (w.extractLsb' 13 2).toNat * 16 + (w.extractLsb' 28 4).toNat
    let lenf := (w.extractLsb' 12 1).toNat * 16 + (w.extractLsb' 24 4).toNat
    let len := if lenf = 0 then 32 else lenf
    let dest := (w.extractLsb' 18 6).toNat
    (¬ (cfg.xlen = .rv32 ∧ lenf = 0) → start + len ≤ cfg.xlen.bits → dest + len ≤ cfg.xlen.bits →
      decode32 cfg.xlen w = .ok (.bfxpc (cregOf (w.extractLsb' 7 3)) (cregOf (w.extractLsb' 15 3))
        (if w.getLsbD 10 = true then .rd else .zero) start len dest)) ∧
    ((cfg.xlen = .rv32 ∧ lenf = 0) ∨ start + len > cfg.xlen.bits ∨ dest + len > cfg.xlen.bits →
      Standing cfg h (.full w) → step ⟨cfg, h⟩ = .fault (.illegalInstruction h.pc.toNat w.toNat))) ∧
  (∀ (cfg : Config) (h : Hart cfg.xlen.bits) (rd rs1 : CReg) (rs2 : Src2) (start len dest : Nat),
    cfg.xlen.BfLegal start len dest →
    ∃ h' v, exec (.bfxpc rd rs1 rs2 start len dest) ⟨cfg, h⟩ = .next ⟨cfg, h'⟩ ∧
      RegisterOnly h h' rd.toReg v (h.pc + 4#_) ∧
      ∀ i < cfg.xlen.bits, v.getLsbD i =
        if dest ≤ i ∧ i < dest + len then !(h.readReg rs1.toReg).getLsbD (i - dest + start)
        else (decide (rs2 = .rd) && (h.readReg rd.toReg).getLsbD i)) ∧
  decode32 .rv32 0x8841897B#32 = .ok (.bfxpc 2 3 .zero 8 8 16) ∧
  bfxpValue (~~~ 0xAABBCCDD#32) 0#32 8 8 16 = 0x00330000#32

/-- `bfxp` and `bfxpc` neither read nor write a register outside x8 to x15 (10_state.md section 1): two harts with the same pc that
agree on x8 to x15 still agree on them and on the pc after, and every other register is as it was. -/
def Obligations.BfInstructionsStayInX8ToX15 : Prop :=
  ∀ (cfg : Config) (g h : Hart cfg.xlen.bits) (rd rs1 : CReg) (rs2 : Src2) (start len dest : Nat) (i : Instr),
    i = .bfxp rd rs1 rs2 start len dest ∨ i = .bfxpc rd rs1 rs2 start len dest →
    g.pc = h.pc → (∀ c : CReg, g.readReg c.toReg = h.readReg c.toReg) →
    ∃ g' h', exec i ⟨cfg, g⟩ = .next ⟨cfg, g'⟩ ∧ exec i ⟨cfg, h⟩ = .next ⟨cfg, h'⟩ ∧
      g'.pc = h'.pc ∧ (∀ c : CReg, g'.readReg c.toReg = h'.readReg c.toReg) ∧
      ∀ r : Reg, r.val < 8 ∨ 15 < r.val → g'.readReg r = g.readReg r ∧ h'.readReg r = h.readReg r

/-- Both sources are read before `rd` is written, also when all three are one register: one field of the register is copied onto
another window of it (40_bitfield.md section 6; derived in the spec), with the section's example. -/
def Obligations.OneRegisterCopiesItsOwnField : Prop :=
  (∀ (cfg : Config) (h : Hart cfg.xlen.bits) (r : CReg) (start len dest : Nat), cfg.xlen.BfLegal start len dest →
    ∃ h', exec (.bfxp r r .rd start len dest) ⟨cfg, h⟩ = .next ⟨cfg, h'⟩ ∧
      (∀ i < len, (h'.readReg r.toReg).getLsbD (dest + i) = (h.readReg r.toReg).getLsbD (start + i)) ∧
      ∀ i, i < dest ∨ dest + len ≤ i → (h'.readReg r.toReg).getLsbD i = (h.readReg r.toReg).getLsbD i) ∧
  bfxpValue 0x11223344#32 0x11223344#32 0 8 24 = 0x44223344#32

/-- R62: `addi`. -/
def Obligations.AddiAddsModuloXlen : Prop :=
  (∀ (x : Xlen) (w : BitVec 32), w &&& 0x0000707F#32 = 0x00000013#32 →
    decode32 x w = .ok (.addi (regOf (w.extractLsb' 7 5)) (regOf (w.extractLsb' 15 5)) (w.extractLsb' 20 12))) ∧
  (∀ (cfg : Config) (h : Hart cfg.xlen.bits) (rd rs1 : Reg) (imm : BitVec 12),
    ∃ h' v, exec (.addi rd rs1 imm) ⟨cfg, h⟩ = .next ⟨cfg, h'⟩ ∧
      RegisterOnly h h' rd v (h.pc + 4#_) ∧
      (v.toNat : Int) = ((h.readReg rs1).toNat + imm.toInt) % 2 ^ cfg.xlen.bits) ∧
  decode32 .rv32 0x00400693#32 = .ok (.addi 13 0 4) ∧ decode32 .rv32 0xFFF68693#32 = .ok (.addi 13 13 (-1))

/-- R63, R64, R65: `slli`, `srli`, `srai`. The word gives its amount in bits 25:20; on RV32 one with bit 25 set raises
IllegalInstruction; the result is given bit by bit. -/
def Obligations.ShiftImmediatesMoveBits : Prop :=
  (∀ (f : Reg → Reg → Nat → Instr) (pat : BitVec 32),
    (f, pat) ∈ [(Instr.slli, 0x00001013#32), (Instr.srli, 0x00005013#32), (Instr.srai, 0x40005013#32)] →
    ∀ w : BitVec 32, w &&& 0xFC00707F#32 = pat →
      (∀ x : Xlen, (w.extractLsb' 20 6).toNat < x.bits →
        decode32 x w = .ok (f (regOf (w.extractLsb' 7 5)) (regOf (w.extractLsb' 15 5)) (w.extractLsb' 20 6).toNat)) ∧
      (∀ (cfg : Config) (h : Hart cfg.xlen.bits), cfg.xlen = .rv32 → w.getLsbD 25 = true → Standing cfg h (.full w) →
        step ⟨cfg, h⟩ = .fault (.illegalInstruction h.pc.toNat w.toNat))) ∧
  (∀ (cfg : Config) (h : Hart cfg.xlen.bits) (rd rs1 : Reg) (shamt : Nat), shamt < cfg.xlen.bits →
    (∃ h' v, exec (.slli rd rs1 shamt) ⟨cfg, h⟩ = .next ⟨cfg, h'⟩ ∧ RegisterOnly h h' rd v (h.pc + 4#_) ∧
      ∀ i < cfg.xlen.bits, v.getLsbD i = (decide (shamt ≤ i) && (h.readReg rs1).getLsbD (i - shamt))) ∧
    (∃ h' v, exec (.srli rd rs1 shamt) ⟨cfg, h⟩ = .next ⟨cfg, h'⟩ ∧ RegisterOnly h h' rd v (h.pc + 4#_) ∧
      ∀ i < cfg.xlen.bits, v.getLsbD i = (decide (i + shamt < cfg.xlen.bits) && (h.readReg rs1).getLsbD (i + shamt))) ∧
    (∃ h' v, exec (.srai rd rs1 shamt) ⟨cfg, h⟩ = .next ⟨cfg, h'⟩ ∧ RegisterOnly h h' rd v (h.pc + 4#_) ∧
      ∀ i < cfg.xlen.bits, v.getLsbD i =
        if i + shamt < cfg.xlen.bits then (h.readReg rs1).getLsbD (i + shamt)
        else (h.readReg rs1).getLsbD (cfg.xlen.bits - 1))) ∧
  decode32 .rv32 0x00459593#32 = .ok (.slli 11 11 4) ∧
  decode32 .rv32 0x4145D513#32 = .ok (.srai 10 11 20) ∧
  (0xFEC00000#32).sshiftRight 20 = 0xFFFFFFEC#32

/-- R66: `or`. -/
def Obligations.OrJoinsBits : Prop :=
  (∀ (x : Xlen) (w : BitVec 32), w &&& 0xFE00707F#32 = 0x00006033#32 →
    decode32 x w = .ok (.or (regOf (w.extractLsb' 7 5)) (regOf (w.extractLsb' 15 5)) (regOf (w.extractLsb' 20 5)))) ∧
  (∀ (cfg : Config) (h : Hart cfg.xlen.bits) (rd rs1 rs2 : Reg),
    ∃ h' v, exec (.or rd rs1 rs2) ⟨cfg, h⟩ = .next ⟨cfg, h'⟩ ∧
      RegisterOnly h h' rd v (h.pc + 4#_) ∧
      ∀ i, v.getLsbD i = ((h.readReg rs1).getLsbD i || (h.readReg rs2).getLsbD i)) ∧
  decode32 .rv32 0x00B56533#32 = .ok (.or 10 10 11)

/-- R67: `lw`. With addr = x[rs1] + sext(imm): a misaligned address and an address outside the map raise their exceptions, in this
order; else the four bytes from addr, little-endian and sign-extended, go to `rd` and nothing else changes. -/
def Obligations.LwLoadsFourBytes : Prop :=
  (∀ (x : Xlen) (w : BitVec 32), w &&& 0x0000707F#32 = 0x00002003#32 →
    decode32 x w = .ok (.lw (regOf (w.extractLsb' 7 5)) (regOf (w.extractLsb' 15 5)) (w.extractLsb' 20 12))) ∧
  (∀ (cfg : Config) (h : Hart cfg.xlen.bits) (rd rs1 : Reg) (imm : BitVec 12),
    let addr := h.readReg rs1 + imm.signExtend cfg.xlen.bits
    (addr.toNat % 4 ≠ 0 →
      exec (.lw rd rs1 imm) ⟨cfg, h⟩ = .fault (.loadAddressMisaligned h.pc.toNat addr.toNat)) ∧
    (addr.toNat % 4 = 0 → ¬ cfg.Inside none addr.toNat 4 →
      exec (.lw rd rs1 imm) ⟨cfg, h⟩ = .fault (.loadAccessFault h.pc.toNat addr.toNat)) ∧
    (addr.toNat % 4 = 0 → cfg.Inside none addr.toNat 4 →
      ∃ h' v, exec (.lw rd rs1 imm) ⟨cfg, h⟩ = .next ⟨cfg, h'⟩ ∧
        RegisterOnly h h' rd v (h.pc + 4#_) ∧
        ∀ i < cfg.xlen.bits, v.getLsbD i =
          if i < 32 then (h.mem.byte (addr + BitVec.ofNat _ (i / 8)).toNat).getLsbD (i % 8)
          else (h.mem.byte (addr + 3#_).toNat).getLsbD 7)) ∧
  decode32 .rv32 0x00062503#32 = .ok (.lw 10 12 0)

/-- R68: `sw`. With addr = x[rs1] + sext(imm): a misaligned address and an address outside every data region raise their
exceptions, in this order; else the low four bytes of x[rs2] go to addr, little-endian, and nothing else changes. The memory is
in its canonical form, which every step keeps (StepKeepsInvariant). -/
def Obligations.SwStoresFourBytes : Prop :=
  (∀ (x : Xlen) (w : BitVec 32), w &&& 0x0000707F#32 = 0x00002023#32 →
    ∃ imm, decode32 x w = .ok (.sw (regOf (w.extractLsb' 20 5)) (regOf (w.extractLsb' 15 5)) imm) ∧
      imm.toNat = (w.extractLsb' 25 7).toNat * 32 + (w.extractLsb' 7 5).toNat) ∧
  (∀ (cfg : Config) (h : Hart cfg.xlen.bits) (rs2 rs1 : Reg) (imm : BitVec 12), h.mem.wf →
    let addr := h.readReg rs1 + imm.signExtend cfg.xlen.bits
    (addr.toNat % 4 ≠ 0 →
      exec (.sw rs2 rs1 imm) ⟨cfg, h⟩ = .fault (.storeAddressMisaligned h.pc.toNat addr.toNat)) ∧
    (addr.toNat % 4 = 0 → ¬ cfg.Inside (some .data) addr.toNat 4 →
      exec (.sw rs2 rs1 imm) ⟨cfg, h⟩ = .fault (.storeAccessFault h.pc.toNat addr.toNat)) ∧
    (addr.toNat % 4 = 0 → cfg.Inside (some .data) addr.toNat 4 →
      ∃ h', exec (.sw rs2 rs1 imm) ⟨cfg, h⟩ = .next ⟨cfg, h'⟩ ∧
        (∀ r, h'.readReg r = h.readReg r) ∧ h'.pc = h.pc + 4#_ ∧ h'.fault = h.fault ∧
        (∀ i < 4, h'.mem.byte (addr + BitVec.ofNat _ i).toNat = (h.readReg rs2).extractLsb' (8 * i) 8) ∧
        ∀ a, (∀ i < 4, a ≠ (addr + BitVec.ofNat _ i).toNat) → h'.mem.byte a = h.mem.byte a)) ∧
  decode32 .rv32 0x00B62023#32 = .ok (.sw 11 12 0) ∧ decode32 .rv32 0xFE512623#32 = .ok (.sw 5 2 (-20))

/-- R69: `bne`. Taken to an aligned target, taken to a misaligned one, and not taken. -/
def Obligations.BneBranchesOnInequality : Prop :=
  (∀ (x : Xlen) (w : BitVec 32), w &&& 0x0000707F#32 = 0x00001063#32 →
    ∃ off, decode32 x w = .ok (.bne (regOf (w.extractLsb' 15 5)) (regOf (w.extractLsb' 20 5)) off) ∧
      off.toNat = (w.extractLsb' 31 1).toNat * 4096 + (w.extractLsb' 7 1).toNat * 2048 +
        (w.extractLsb' 25 6).toNat * 32 + (w.extractLsb' 8 4).toNat * 2) ∧
  (∀ (cfg : Config) (h : Hart cfg.xlen.bits) (rs1 rs2 : Reg) (off : BitVec 13),
    let t := h.pc + off.signExtend cfg.xlen.bits
    (h.readReg rs1 ≠ h.readReg rs2 → t.toNat % cfg.ialignBytes = 0 →
      ∃ h', exec (.bne rs1 rs2 off) ⟨cfg, h⟩ = .next ⟨cfg, h'⟩ ∧ PcOnly h h' t) ∧
    (h.readReg rs1 ≠ h.readReg rs2 → t.toNat % cfg.ialignBytes ≠ 0 →
      exec (.bne rs1 rs2 off) ⟨cfg, h⟩ = .fault (.instructionAddressMisaligned h.pc.toNat t.toNat)) ∧
    (h.readReg rs1 = h.readReg rs2 →
      ∃ h', exec (.bne rs1 rs2 off) ⟨cfg, h⟩ = .next ⟨cfg, h'⟩ ∧ PcOnly h h' (h.pc + 4#_))) ∧
  decode32 .rv32 0xFE0696E3#32 = .ok (.bne 13 0 (-20))

/-- R70: `jalr`. The target is the sum with its bit 0 cleared, from the old x[rs1]; the link pc + 4 goes to `rd`; a misaligned
target raises its exception. -/
def Obligations.JalrLinksAndJumps : Prop :=
  (∀ (x : Xlen) (w : BitVec 32), w &&& 0x0000707F#32 = 0x00000067#32 →
    decode32 x w = .ok (.jalr (regOf (w.extractLsb' 7 5)) (regOf (w.extractLsb' 15 5)) (w.extractLsb' 20 12))) ∧
  (∀ (cfg : Config) (h : Hart cfg.xlen.bits) (rd rs1 : Reg) (imm : BitVec 12) (t : BitVec cfg.xlen.bits),
    t.toNat = (h.readReg rs1 + imm.signExtend cfg.xlen.bits).toNat / 2 * 2 →
    (t.toNat % cfg.ialignBytes = 0 →
      ∃ h', exec (.jalr rd rs1 imm) ⟨cfg, h⟩ = .next ⟨cfg, h'⟩ ∧ RegisterOnly h h' rd (h.pc + 4#_) t) ∧
    (t.toNat % cfg.ialignBytes ≠ 0 →
      exec (.jalr rd rs1 imm) ⟨cfg, h⟩ = .fault (.instructionAddressMisaligned h.pc.toNat t.toNat)))

/-- R71: `ret`, in either spelling, goes to x[1] with its bit 0 cleared and changes nothing else. With HAS_C the target is always
aligned; without, the premise says that it is. -/
def Obligations.RetReturnsThroughRa : Prop :=
  (∀ (cfg : Config) (h : Hart cfg.xlen.bits) (c : Bool) (t : BitVec cfg.xlen.bits),
    t.toNat = (h.readReg 1).toNat / 2 * 2 → t.toNat % cfg.ialignBytes = 0 →
    ∃ h', exec (ret c) ⟨cfg, h⟩ = .next ⟨cfg, h'⟩ ∧ PcOnly h h' t) ∧
  encode (ret false) = .full 0x00008067#32 ∧ encode (ret true) = .half 0x8082#16

/-- R72: `c.srai`. Only when HAS_C; shamt 0, and shamt[5] on RV32, raise IllegalInstruction. -/
def Obligations.CSraiShiftsInPlace : Prop :=
  (∀ (cfg : Config) (p : BitVec 16), cfg.hasC = true → p &&& 0xEC03#16 = 0x8401#16 →
    let sh := (p.extractLsb' 12 1).toNat * 32 + (p.extractLsb' 2 5).toNat
    (sh ≠ 0 → sh < cfg.xlen.bits → decode16 cfg p = .ok (.cSrai (cregOf (p.extractLsb' 7 3)) sh)) ∧
    (∀ h : Hart cfg.xlen.bits, sh = 0 ∨ cfg.xlen.bits ≤ sh → Standing cfg h (.half p) →
      step ⟨cfg, h⟩ = .fault (.illegalInstruction h.pc.toNat p.toNat))) ∧
  (∀ (cfg : Config) (h : Hart cfg.xlen.bits) (rd : CReg) (shamt : Nat), shamt < cfg.xlen.bits →
    ∃ h' v, exec (.cSrai rd shamt) ⟨cfg, h⟩ = .next ⟨cfg, h'⟩ ∧ RegisterOnly h h' rd.toReg v (h.pc + 2#_) ∧
      ∀ i < cfg.xlen.bits, v.getLsbD i =
        if i + shamt < cfg.xlen.bits then (h.readReg rd.toReg).getLsbD (i + shamt)
        else (h.readReg rd.toReg).getLsbD (cfg.xlen.bits - 1)) ∧
  decode16 Config.reset 0x8551#16 = .ok (.cSrai 2 20) ∧ decode16 Config.reset 0x854D#16 = .ok (.cSrai 2 19) ∧
  decode16 Config.reset 0x852D#16 = .ok (.cSrai 2 11) ∧ decode16 Config.reset 0x85D1#16 = .ok (.cSrai 3 20)

/-- R73: `c.jr`. rs1 = 0 raises IllegalInstruction; with HAS_C the target, bit 0 cleared, is always aligned; its effect is that of
`jalr x0, 0(rs1)`. -/
def Obligations.CJrJumpsToRegister : Prop :=
  (∀ (cfg : Config) (p : BitVec 16), cfg.hasC = true → p &&& 0xF07F#16 = 0x8002#16 →
    (p.extractLsb' 7 5 ≠ 0#5 → decode16 cfg p = .ok (.cJr (regOf (p.extractLsb' 7 5)))) ∧
    (∀ h : Hart cfg.xlen.bits, p.extractLsb' 7 5 = 0#5 → Standing cfg h (.half p) →
      step ⟨cfg, h⟩ = .fault (.illegalInstruction h.pc.toNat p.toNat))) ∧
  (∀ (cfg : Config) (h : Hart cfg.xlen.bits) (rs1 : Reg) (t : BitVec cfg.xlen.bits),
    cfg.hasC = true → t.toNat = (h.readReg rs1).toNat / 2 * 2 →
    t.toNat % cfg.ialignBytes = 0 ∧
    ∃ h', exec (.cJr rs1) ⟨cfg, h⟩ = .next ⟨cfg, h'⟩ ∧ PcOnly h h' t) ∧
  (∀ (rs1 : Reg) (s : State), exec (.cJr rs1) s = exec (.jalr 0 rs1 0) s) ∧
  decode16 Config.reset 0x8082#16 = .ok (.cJr 1)

/-! ### Memory -/

/-- R23: data accesses are little-endian, with addresses modulo 2^XLEN. A read takes each byte from its own address; a write puts
each byte there and leaves every other alone; and a word stored by `sw` and loaded by `lw` from the same address is the value
stored, the low 32 bits of x[rs2], sign-extended. -/
def Obligations.DataAccessesAreLittleEndian : Prop :=
  (∀ (x : Xlen) (m : Memory) (addr : BitVec x.bits), ∀ i < 4,
    (m.read addr 32 4).extractLsb' (8 * i) 8 = m.byte ((addr.toNat + i) % 2 ^ x.bits)) ∧
  (∀ (x : Xlen) (m : Memory) (addr v : BitVec x.bits), m.wf →
    (∀ i < 4, (m.write addr v 4).byte ((addr.toNat + i) % 2 ^ x.bits) = v.extractLsb' (8 * i) 8) ∧
    ∀ a, (∀ i < 4, a ≠ (addr.toNat + i) % 2 ^ x.bits) → (m.write addr v 4).byte a = m.byte a) ∧
  (∀ (cfg : Config) (h h1 : Hart cfg.xlen.bits) (rs2 rs1 rd : Reg) (imm : BitVec 12), h.mem.wf →
    exec (.sw rs2 rs1 imm) ⟨cfg, h⟩ = .next ⟨cfg, h1⟩ →
    ∃ h2, exec (.lw rd rs1 imm) ⟨cfg, h1⟩ = .next ⟨cfg, h2⟩ ∧
      h2.readReg rd = if rd = 0 then 0 else ((h.readReg rs2).setWidth 32).signExtend cfg.xlen.bits)

/-- The canonical form of memory is canonical: two memories in it that read alike are the same data. -/
def Obligations.MemoriesThatReadAlikeAreEqual : Prop :=
  ∀ m n : Memory, m.wf → n.wf → (∀ a, m.byte a = n.byte a) → m = n

/-- R24: a misaligned `lw` or `sw` raises its exception and performs no part of the access; the state left behind differs in the
fault record alone. -/
def Obligations.MisalignedAccessChangesNothing : Prop :=
  ∀ (cfg : Config) (h : Hart cfg.xlen.bits) (r rs1 : Reg) (imm : BitVec 12),
    let addr := h.readReg rs1 + imm.signExtend cfg.xlen.bits
    addr.toNat % 4 ≠ 0 → h.fault = none →
    (let e := Fault.loadAddressMisaligned h.pc.toNat addr.toNat
     exec (.lw r rs1 imm) ⟨cfg, h⟩ = .fault e ∧
     State.settle ⟨cfg, h⟩ (exec (.lw r rs1 imm) ⟨cfg, h⟩) = ⟨cfg, { h with fault := some e }⟩) ∧
    (let e := Fault.storeAddressMisaligned h.pc.toNat addr.toNat
     exec (.sw r rs1 imm) ⟨cfg, h⟩ = .fault e ∧
     State.settle ⟨cfg, h⟩ (exec (.sw r rs1 imm) ⟨cfg, h⟩) = ⟨cfg, { h with fault := some e }⟩)

/-- R28: the program text is immutable. No step changes a byte of a text region, and a `sw` to an aligned address in one raises
StoreAccessFault. -/
def Obligations.TextIsImmutable : Prop :=
  (∀ s t : State, s.cfg.WellFormed → s.hart.mem.wf → step s = .next t →
    ∀ a, s.cfg.InText a → t.hart.mem.byte a = s.hart.mem.byte a) ∧
  (∀ (cfg : Config) (h : Hart cfg.xlen.bits) (rs2 rs1 : Reg) (imm : BitVec 12), cfg.WellFormed →
    let addr := h.readReg rs1 + imm.signExtend cfg.xlen.bits
    addr.toNat % 4 = 0 → cfg.InText addr.toNat →
      exec (.sw rs2 rs1 imm) ⟨cfg, h⟩ = .fault (.storeAccessFault h.pc.toNat addr.toNat))

/-- Memory is written by `sw` only, and in data regions only (10_state.md section 8, the column "Written by"): where a step changes
a byte, the instruction at the pc is a `sw`, and the byte is one of the four it stores, inside a data region. -/
def Obligations.OnlySwChangesMemory : Prop :=
  ∀ (s t : State) (a : Nat), s.hart.mem.wf → step s = .next t → t.hart.mem.byte a ≠ s.hart.mem.byte a →
    ∃ (rs2 rs1 : Reg) (imm : BitVec 12), fetchDecode s.cfg s.hart = .ok (.sw rs2 rs1 imm) ∧
      (∃ i < 4, a = (effectiveAddress s.hart rs1 imm + BitVec.ofNat _ i).toNat) ∧
      s.cfg.Inside (some .data) (effectiveAddress s.hart rs1 imm).toNat 4

/-! ### State -/

/-- R10 on x0, in every state: it reads as zero, and a write to it changes nothing at all; a write to any other register is read
back and leaves the rest alone; no register field of `bfxp` or `bfxpc` names x0. -/
def Obligations.X0IsHardwired : Prop :=
  ∀ (w : Nat) (h : Hart w) (v : BitVec w),
    h.readReg 0 = 0 ∧ h.writeReg 0 v = h ∧
    (∀ r : Reg, r ≠ 0 → (h.writeReg r v).readReg r = v ∧ ∀ q, q ≠ r → (h.writeReg r v).readReg q = h.readReg q) ∧
    ∀ c : CReg, c.toReg ≠ 0

/-- R90: what a launch leaves. pc = RESET_PC, no fault recorded, x0 zero, and any register values and image at all. -/
def Obligations.LaunchLeavesResetState : Prop :=
  ∀ (cfg : Config) (regs : Vector (BitVec cfg.xlen.bits) 31) (image : Memory), cfg.WellFormed →
    let s := State.launch cfg regs image
    s.cfg = cfg ∧ s.hart.pc.toNat = cfg.resetPc ∧ s.hart.fault = none ∧ s.hart.mem = image ∧ s.hart.readReg 0 = 0 ∧
    ∀ (r : Reg) (hr : r ≠ 0), s.hart.readReg r = regs[r.val - 1]'(by omega)

/-- `State.reset` is one launch, whose parameters are admitted ones. Its values for what the spec leaves OPEN or unspecified are
the model's choices, logs 2 to 4. -/
def Obligations.ResetIsAnAdmittedLaunch : Prop :=
  Config.reset.WellFormed ∧ State.reset = State.launch Config.reset (Vector.replicate 31 0) [] ∧ State.reset.Inv

/-! ### Steps -/

/-- A step runs the decoded instruction: where the encoding of a well-formed instruction stands at the pc, the step is that
instruction's effect and nothing is added around it. -/
def Obligations.StepRunsDecodedInstruction : Prop :=
  ∀ (cfg : Config) (h : Hart cfg.xlen.bits) (i : Instr), i.wellFormed cfg = true → Standing cfg h (encode i) →
    step ⟨cfg, h⟩ = exec i ⟨cfg, h⟩

/-- One step of a hart with no fault recorded, in the order of R29, with the parcels read byte by byte. Two clauses rest on the model's
own reading: that each parcel is checked against a text region of its own (log 13), and that without HAS_C the value recorded is
the one 16-bit parcel (log 11). -/
def Obligations.StepFollowsTheFetchRule : Prop :=
  (∀ (cfg : Config) (h : Hart cfg.xlen.bits), h.fault = none →
    let pc := h.pc.toNat
    let b (k : Nat) := h.mem.byte (h.pc + BitVec.ofNat _ k).toNat
    let lo := (b 0).toNat + 256 * (b 1).toNat
    let full := lo + 2 ^ 16 * (b 2).toNat + 2 ^ 24 * (b 3).toNat
    (pc % cfg.ialignBytes ≠ 0 → step ⟨cfg, h⟩ = .fault (.instructionAddressMisaligned pc pc)) ∧
    (pc % cfg.ialignBytes = 0 → ¬ cfg.Inside (some .text) pc 2 →
      step ⟨cfg, h⟩ = .fault (.instructionAccessFault pc pc)) ∧
    (pc % cfg.ialignBytes = 0 → cfg.Inside (some .text) pc 2 → lo % 4 ≠ 3 →
      step ⟨cfg, h⟩ = match decode16 cfg (BitVec.ofNat 16 lo) with
        | .ok i    => exec i ⟨cfg, h⟩
        | .error _ => .fault (.illegalInstruction pc lo)) ∧
    (pc % cfg.ialignBytes = 0 → cfg.Inside (some .text) pc 2 → lo % 4 = 3 →
      ¬ cfg.Inside (some .text) (h.pc + 2#_).toNat 2 → step ⟨cfg, h⟩ = .fault (.instructionAccessFault pc pc)) ∧
    (pc % cfg.ialignBytes = 0 → cfg.Inside (some .text) pc 2 → lo % 4 = 3 →
      cfg.Inside (some .text) (h.pc + 2#_).toNat 2 →
      step ⟨cfg, h⟩ = match decode32 cfg.xlen (BitVec.ofNat 32 full) with
        | .ok i    => exec i ⟨cfg, h⟩
        | .error _ => .fault (.illegalInstruction pc full))) ∧
  (∀ (cfg : Config) (p : BitVec 16), cfg.hasC = false → ∃ r, decode16 cfg p = .error r) ∧
  (∀ w : BitVec 32, w.extractLsb' 0 7 = 0b1111011#7 → w.extractLsb' 0 2 = 0b11#2 ∧ w.extractLsb' 2 3 = 0b110#3)

/-- R42: a reserved custom-3 word raises IllegalInstruction(word) and changes no state but the fault record. -/
def Obligations.ReservedWordRaisesIllegalInstruction : Prop :=
  ∀ (cfg : Config) (h : Hart cfg.xlen.bits) (w : BitVec 32) (r : Reject),
    w.extractLsb' 0 7 = 0b1111011#7 → decode32 cfg.xlen w = .error r → Standing cfg h (.full w) →
    let e := Fault.illegalInstruction h.pc.toNat w.toNat
    step ⟨cfg, h⟩ = .fault e ∧ stepState ⟨cfg, h⟩ = ⟨cfg, { h with fault := some e }⟩

/-- R74: a fetched word that is the encoding of no instruction of this machine raises IllegalInstruction(word), custom-3 or not;
`lui`, `jal`, `add`, `ecall` and `fence` are such words on every machine. -/
def Obligations.UnadmittedWordRaisesIllegalInstruction : Prop :=
  (∀ (cfg : Config) (h : Hart cfg.xlen.bits) (iw : InstrWord),
    (∀ i : Instr, i.wellFormed cfg = true → encode i ≠ iw) → Standing cfg h iw →
    step ⟨cfg, h⟩ = .fault (.illegalInstruction h.pc.toNat iw.toNat)) ∧
  (∀ w ∈ [0x000000B7#32, 0x0000006F#32, 0x00000033#32, 0x00000073#32, 0x0000000F#32],
    ∀ (cfg : Config) (i : Instr), i.wellFormed cfg = true → encode i ≠ .full w)

/-- A fault is precise and terminal (60_exceptions.md sections 3 and 6). It names the pc of the instruction that raised it; the state
left behind differs from the state before in the fault record alone, and is never final. That a step of that state answers the
same fault again and leaves it as it is, is the model's choice of how the hart takes no further step (log 6). -/
def Obligations.FaultIsPreciseAndTerminal : Prop :=
  ∀ (s : State) (e : Fault), s.hart.fault = none → step s = .fault e →
    (∃ (E : Nat → Nat → Fault) (v : Nat), e = E s.hart.pc.toNat v ∧
      E ∈ [Fault.instructionAddressMisaligned, .instructionAccessFault, .illegalInstruction, .loadAddressMisaligned,
        .loadAccessFault, .storeAddressMisaligned, .storeAccessFault]) ∧
    stepState s = ⟨s.cfg, { s.hart with fault := some e }⟩ ∧
    step (stepState s) = .fault e ∧ stepState (stepState s) = stepState s ∧ ¬ (stepState s).Final

/-- Which instruction raises which exception once it is decoded, and with what value (60_exceptions.md section 2). In particular
`bfxp` and `bfxpc` raise none. -/
def Obligations.OnlyListedInstructionsRaise : Prop :=
  ∀ (i : Instr) (s : State) (e : Fault), exec i s = .fault e →
    let pc := s.hart.pc.toNat
    (i.mnemonic ∈ ["bne", "jalr", "c.jr"] ∧
      ∃ t, t % s.cfg.ialignBytes ≠ 0 ∧ e = .instructionAddressMisaligned pc t ∧ faultCode e = 0) ∨
    (i.mnemonic = "lw" ∧
      ((∃ a, a % 4 ≠ 0 ∧ e = .loadAddressMisaligned pc a ∧ faultCode e = 4) ∨
       (∃ a, ¬ s.cfg.Inside none a 4 ∧ e = .loadAccessFault pc a ∧ faultCode e = 5))) ∨
    (i.mnemonic = "sw" ∧
      ((∃ a, a % 4 ≠ 0 ∧ e = .storeAddressMisaligned pc a ∧ faultCode e = 6) ∨
       (∃ a, ¬ s.cfg.Inside (some .data) a 4 ∧ e = .storeAccessFault pc a ∧ faultCode e = 7)))

/-- No step is refused, and a step that completes leaves the parameters as they are and no fault recorded. -/
def Obligations.StepIsNeverRefused : Prop :=
  ∀ s : State, (∀ r, step s ≠ .refused r) ∧ ∀ t, step s = .next t → t.cfg = s.cfg ∧ t.hart.fault = none

/-- Every step keeps the invariant: memory in its canonical form with XLEN-bit addresses, and the pc a multiple of IALIGN/8. -/
def Obligations.StepKeepsInvariant : Prop :=
  ∀ s t : State, s.Inv → step s = .next t → t.Inv

/-- A run of any length from a state that meets the invariant ends, where it does not fault, in a state that meets it, and with the
text it began with. -/
def Obligations.RunsKeepTextAndInvariant : Prop :=
  ∀ (n : Nat) (s t : State), s.cfg.WellFormed → s.Inv → Sys2Proof.core.run n s = .next t →
    t.Inv ∧ t.cfg = s.cfg ∧ ∀ a, s.cfg.InText a → t.hart.mem.byte a = s.hart.mem.byte a

/-- A run ends only at HALT_PC with no fault recorded, after at least one step and by steps that all completed; a run that faults
leaves a state that is not final (70_reset_and_hazards.md section 5). -/
def Obligations.RunsEndOnlyAtHaltPc : Prop :=
  (∀ (n : Nat) (s t : State), run n s = .final t →
    t.hart.pc = BitVec.ofNat _ t.cfg.haltPc ∧ t.hart.fault = none ∧
    ∃ k, 1 ≤ k ∧ k ≤ n ∧ Sys2Proof.core.run k s = .next t) ∧
  (∀ (n : Nat) (s t : State), run n s = .faulted t → ¬ t.Final ∧ t.hart.fault ≠ none)

/-- The host's placing of an instruction: after `withFetchWord`, at an aligned pc whose parcels lie in text, the next step runs
exactly the word's instruction, of either length, and nothing else than the four bytes at the pc has changed. This stands for
the launch (log 5). -/
def Obligations.PlacedWordRunsNext : Prop :=
  ∀ (cfg : Config) (h : Hart cfg.xlen.bits) (iw : InstrWord) (i : Instr), h.mem.wf → h.fault = none →
    h.pc.toNat % cfg.ialignBytes = 0 → cfg.Inside (some .text) h.pc.toNat 2 →
    (iw.length = 4 → cfg.Inside (some .text) (h.pc + 2#_).toNat 2) → decodeWord cfg iw = .ok i →
    ∃ h', State.withFetchWord ⟨cfg, h⟩ (8 * iw.length) iw.toNat = ⟨cfg, h'⟩ ∧
      step ⟨cfg, h'⟩ = exec i ⟨cfg, h'⟩ ∧
      (∀ r, h'.readReg r = h.readReg r) ∧ h'.pc = h.pc ∧ h'.fault = h.fault ∧
      ∀ a, (∀ k < 4, a ≠ (h.pc + BitVec.ofNat _ k).toNat) → h'.mem.byte a = h.mem.byte a
end

