-- ==== Sys2Proof/Laws/State.lean ====
section
/-!
SUPPORT. One lemma per field per update of the hart, and the register file's read-after-write lemmas.
-/

namespace Sys2Proof.Machine

variable {w : Nat}

/-! ### setPc, setMem, advance -/

@[simp] theorem Hart.setPc_pc (h : Hart w) (t : BitVec w) : (h.setPc t).pc = t := rfl
@[simp] theorem Hart.setPc_regs (h : Hart w) (t : BitVec w) : (h.setPc t).regs = h.regs := rfl
@[simp] theorem Hart.setPc_mem (h : Hart w) (t : BitVec w) : (h.setPc t).mem = h.mem := rfl
@[simp] theorem Hart.setPc_fault (h : Hart w) (t : BitVec w) : (h.setPc t).fault = h.fault := rfl
@[simp] theorem Hart.setPc_readReg (h : Hart w) (t : BitVec w) (r : Reg) : (h.setPc t).readReg r = h.readReg r := rfl

@[simp] theorem Hart.setMem_pc (h : Hart w) (m : Memory) : (h.setMem m).pc = h.pc := rfl
@[simp] theorem Hart.setMem_regs (h : Hart w) (m : Memory) : (h.setMem m).regs = h.regs := rfl
@[simp] theorem Hart.setMem_mem (h : Hart w) (m : Memory) : (h.setMem m).mem = m := rfl
@[simp] theorem Hart.setMem_fault (h : Hart w) (m : Memory) : (h.setMem m).fault = h.fault := rfl
@[simp] theorem Hart.setMem_readReg (h : Hart w) (m : Memory) (r : Reg) : (h.setMem m).readReg r = h.readReg r := rfl

@[simp] theorem Hart.advance_pc (h : Hart w) (n : Nat) : (h.advance n).pc = h.pc + BitVec.ofNat w n := rfl
@[simp] theorem Hart.advance_mem (h : Hart w) (n : Nat) : (h.advance n).mem = h.mem := rfl
@[simp] theorem Hart.advance_fault (h : Hart w) (n : Nat) : (h.advance n).fault = h.fault := rfl
@[simp] theorem Hart.advance_readReg (h : Hart w) (n : Nat) (r : Reg) : (h.advance n).readReg r = h.readReg r := rfl

/-! ### writeReg -/

@[simp] theorem Hart.writeReg_pc (h : Hart w) (r : Reg) (v : BitVec w) : (h.writeReg r v).pc = h.pc := by
  unfold Hart.writeReg; split <;> rfl

@[simp] theorem Hart.writeReg_mem (h : Hart w) (r : Reg) (v : BitVec w) : (h.writeReg r v).mem = h.mem := by
  unfold Hart.writeReg; split <;> rfl

@[simp] theorem Hart.writeReg_fault (h : Hart w) (r : Reg) (v : BitVec w) : (h.writeReg r v).fault = h.fault := by
  unfold Hart.writeReg; split <;> rfl

/-- x0 reads zero (R10). -/
@[simp] theorem Hart.readReg_zero (h : Hart w) : h.readReg 0 = 0 := rfl

/-- A write to x0 is discarded (R10). -/
@[simp] theorem Hart.writeReg_zero (h : Hart w) (v : BitVec w) : h.writeReg 0 v = h := rfl

/-- Any register, read after a write to any register. -/
theorem Hart.readReg_writeReg (h : Hart w) (r q : Reg) (v : BitVec w) :
    (h.writeReg r v).readReg q = if q = r ∧ r ≠ 0 then v else h.readReg q := by
  have hz (p : Reg) : p = 0 ↔ p.val = 0 := Fin.ext_iff
  unfold Hart.writeReg Hart.readReg
  by_cases hq : q.val = 0 <;> by_cases hr : r.val = 0
  · simp [hq, hr, hz]
  · simp only [hq, hr, dite_true, dite_false, Fin.ext_iff]
    split <;> [omega; rfl]
  · simp [hq, hr, hz]
  · by_cases h1 : q = r
    · subst h1; simp [hr, hz]
    · have h2 : r.val - 1 ≠ q.val - 1 := fun h3 => h1 (Fin.ext (by omega))
      simp [hq, hr, h1, Vector.getElem_set_ne, h2]

theorem Hart.readReg_writeReg_same (h : Hart w) (r : Reg) (v : BitVec w) :
    (h.writeReg r v).readReg r = if r = 0 then 0 else v := by
  rw [Hart.readReg_writeReg]
  by_cases hr : r = 0
  · subst hr; simp
  · simp [hr]

theorem Hart.readReg_writeReg_ne (h : Hart w) {r q : Reg} (v : BitVec w) (hq : q ≠ r) :
    (h.writeReg r v).readReg q = h.readReg q := by
  simp [Hart.readReg_writeReg, hq]

/-- A register of the BF format is never x0 (R11). -/
theorem CReg.toReg_ne_zero (r : CReg) : r.toReg ≠ 0 := by
  intro h; have := congrArg Fin.val h; simp [CReg.toReg] at this

/-! ### onHart, settle -/

theorem State.onHart_of_next {s : State} {f : Hart s.cfg.xlen.bits → HartOutcome s.cfg.xlen.bits}
    {h' : Hart s.cfg.xlen.bits} (h : f s.hart = .next h') : s.onHart f = .next ⟨s.cfg, h'⟩ := by
  unfold State.onHart; rw [h]

theorem State.onHart_of_fault {s : State} {f : Hart s.cfg.xlen.bits → HartOutcome s.cfg.xlen.bits} {e : Fault}
    (h : f s.hart = .fault e) : s.onHart f = .fault e := by
  unfold State.onHart; rw [h]

/-- All that an instruction written with `onHart` can do. -/
theorem State.onHart_next {s t : State} {f : Hart s.cfg.xlen.bits → HartOutcome s.cfg.xlen.bits}
    (h : s.onHart f = .next t) : ∃ h', f s.hart = .next h' ∧ t = ⟨s.cfg, h'⟩ := by
  unfold State.onHart at h
  cases hf : f s.hart <;> rw [hf] at h <;> simp_all

theorem State.onHart_fault {s : State} {f : Hart s.cfg.xlen.bits → HartOutcome s.cfg.xlen.bits} {e : Fault}
    (h : s.onHart f = .fault e) : f s.hart = .fault e := by
  unfold State.onHart at h
  cases hf : f s.hart <;> rw [hf] at h <;> simp_all

theorem State.onHart_refused {s : State} {f : Hart s.cfg.xlen.bits → HartOutcome s.cfg.xlen.bits} {r : Refusal}
    (h : s.onHart f = .refused r) : f s.hart = .refused r := by
  unfold State.onHart at h
  cases hf : f s.hart <;> rw [hf] at h <;> simp_all

@[simp] theorem State.settle_next (s t : State) : s.settle (.next t) = t := rfl
@[simp] theorem State.settle_fault (s : State) (e : Fault) : s.settle (.fault e) = ⟨s.cfg, s.hart.recordFault e⟩ := rfl
@[simp] theorem State.settle_refused (s : State) (r : Refusal) : s.settle (.refused r) = s := rfl

@[simp] theorem Hart.recordFault_pc (h : Hart w) (e : Fault) : (h.recordFault e).pc = h.pc := by
  unfold Hart.recordFault; split <;> rfl
@[simp] theorem Hart.recordFault_mem (h : Hart w) (e : Fault) : (h.recordFault e).mem = h.mem := by
  unfold Hart.recordFault; split <;> rfl
@[simp] theorem Hart.recordFault_regs (h : Hart w) (e : Fault) : (h.recordFault e).regs = h.regs := by
  unfold Hart.recordFault; split <;> rfl

/-- The two outcomes of a control transfer. -/
theorem Hart.jumpTo_cases (cfg : Config) (h : Hart w) (t : BitVec w) :
    (t.toNat % cfg.ialignBytes = 0 ∧ h.jumpTo cfg t = .next (h.setPc t)) ∨
    (t.toNat % cfg.ialignBytes ≠ 0 ∧
      h.jumpTo cfg t = .fault (.instructionAddressMisaligned h.pc.toNat t.toNat)) := by
  unfold Hart.jumpTo instrAligned Hart.raise
  by_cases ht : t.toNat % cfg.ialignBytes = 0 <;> simp [ht]

end Sys2Proof.Machine
end

