-- ==== Sys2Proof/Laws/Memory.lean ====
section
/-!
SUPPORT. The laws of memory: read after write, and that every operation keeps the canonical form.
-/

namespace Sys2Proof.Machine

variable {w k : Nat}

@[simp] theorem Memory.byte_nil (a : Nat) : Memory.byte [] a = unlistedByte := rfl

theorem Memory.byte_cons (c : Host.Cell) (m : Memory) (a : Nat) :
    Memory.byte (c :: m) a = if a = c.1 then c.2 else Memory.byte m a := rfl

/-- An address below every listed one reads as an unlisted address. -/
theorem Memory.byte_of_below {m : Memory} {a : Nat} (h : ∀ c ∈ m, a < c.1) : m.byte a = unlistedByte := by
  induction m with
  | nil => rfl
  | cons c m ih =>
    have hc := h c (by simp)
    rw [Memory.byte_cons, if_neg (by omega), ih fun d hd => h d (by simp [hd])]

/-- What `setByte` leaves listed. -/
theorem Memory.mem_setByte {m : Memory} {a : Nat} {v : Byte} {c : Host.Cell} (h : c ∈ m.setByte a v) :
    c ∈ m ∨ (c = (a, v) ∧ v ≠ unlistedByte) := by
  induction m with
  | nil => unfold Memory.setByte at h; split at h <;> simp_all
  | cons d m ih =>
    unfold Memory.setByte at h
    repeat' split at h
    all_goals first
      | exact .inl h
      | simp only [List.mem_cons] at h ⊢
        rcases h with h | h
        all_goals first
          | exact .inr ⟨h, ‹_›⟩
          | exact .inl (.inl h)
          | exact .inl (.inr h)
          | exact .inl h
          | exact (ih h).imp .inr id
      | exact .inl (List.mem_cons_of_mem _ h)

theorem Memory.setByte_wf {m : Memory} (a : Nat) (v : Byte) (h : m.wf) : (m.setByte a v).wf := by
  obtain ⟨hs, hn⟩ := h
  refine ⟨?_, fun c hc => (Memory.mem_setByte hc).elim (hn c) fun h => h.1 ▸ h.2⟩
  induction m with
  | nil => unfold Memory.setByte; split <;> simp
  | cons d m ih =>
    have hd := List.pairwise_cons.1 hs
    have ih := ih hd.2 fun c hc => hn c (List.mem_cons_of_mem _ hc)
    unfold Memory.setByte
    split
    · split
      · exact hs
      · refine List.pairwise_cons.2 ⟨fun c hc => ?_, hs⟩
        rcases List.mem_cons.1 hc with rfl | hc
        · assumption
        · have := hd.1 c hc; simp only at *; omega
    · split
      · split
        · exact hd.2
        · exact List.pairwise_cons.2 ⟨fun c hc => by have := hd.1 c hc; simp only at *; omega, hd.2⟩
      · refine List.pairwise_cons.2 ⟨fun c hc => ?_, ih⟩
        rcases Memory.mem_setByte hc with hc | ⟨rfl, -⟩
        · exact hd.1 c hc
        · simp only at *; omega

/-- Read after write, one byte. -/
theorem Memory.byte_setByte {m : Memory} (h : m.wf) (a b : Nat) (v : Byte) :
    (m.setByte a v).byte b = if b = a then v else m.byte b := by
  obtain ⟨hs, -⟩ := h
  induction m with
  | nil =>
    unfold Memory.setByte
    split
    · rename_i hv; split <;> simp [hv]
    · simp [Memory.byte_cons]
  | cons d m ih =>
    obtain ⟨hd, hm⟩ := List.pairwise_cons.1 hs
    have below : ∀ x, x ≤ d.1 → Memory.byte m x = unlistedByte := fun x hx =>
      Memory.byte_of_below fun c hc => by have := hd c hc; omega
    unfold Memory.setByte
    split
    · rename_i hlt
      split
      · rename_i hv
        by_cases hb : b = a
        · subst hb
          simp [Memory.byte_cons, show b ≠ d.1 by omega, below b (by omega), hv]
        · simp [hb]
      · simp [Memory.byte_cons]
    · split
      · rename_i _ heq
        split
        · rename_i hv
          by_cases hb : b = a
          · subst hb; simp [below b (by omega), hv]
          · simp [Memory.byte_cons, hb, show b ≠ d.1 by omega]
        · simp [Memory.byte_cons, heq]
          split <;> simp_all
      · rename_i _ hne
        rw [Memory.byte_cons, ih hm, Memory.byte_cons]
        by_cases hb : b = d.1
        · simp [hb, show d.1 ≠ a by omega]
        · simp [hb]

theorem Memory.write_wf {m : Memory} (addr : BitVec w) (v : BitVec k) (n : Nat) (h : m.wf) :
    (m.write addr v n).wf := by
  induction n with
  | zero => exact h
  | succ n ih => exact Memory.setByte_wf _ _ ih

/-- A store leaves every byte outside its own as it was. -/
theorem Memory.byte_write_ne {m : Memory} (addr : BitVec w) (v : BitVec k) (n a : Nat) (h : m.wf)
    (ha : ∀ i < n, a ≠ (addr + BitVec.ofNat w i).toNat) : (m.write addr v n).byte a = m.byte a := by
  induction n with
  | zero => rfl
  | succ n ih =>
    rw [Memory.write, Memory.byte_setByte (Memory.write_wf _ _ _ h), if_neg (ha n (by omega)),
      ih fun i hi => ha i (by omega)]

theorem Memory.mem_write {m : Memory} {addr : BitVec w} {v : BitVec k} {n : Nat} {c : Host.Cell}
    (h : c ∈ m.write addr v n) : c ∈ m ∨ ∃ i < n, c.1 = (addr + BitVec.ofNat w i).toNat := by
  induction n with
  | zero => exact .inl h
  | succ n ih =>
    rcases Memory.mem_setByte h with h | ⟨rfl, -⟩
    · exact (ih h).imp_right fun ⟨i, hi, hc⟩ => ⟨i, by omega, hc⟩
    · exact .inr ⟨n, by omega, rfl⟩

/-- A store puts byte i of the value at the i-th address, when no address repeats. -/
theorem Memory.byte_write {m : Memory} (addr : BitVec w) (v : BitVec k) (n i : Nat) (h : m.wf)
    (hi : i < n) (hn : n ≤ 2 ^ w) :
    (m.write addr v n).byte (addr + BitVec.ofNat w i).toNat = v.extractLsb' (8 * i) 8 := by
  induction n with
  | zero => omega
  | succ n ih =>
    rw [Memory.write, Memory.byte_setByte (Memory.write_wf _ _ _ h)]
    by_cases hin : i = n
    · subst hin; simp
    · rw [if_neg, ih (by omega) (by omega)]
      intro he
      have h1 := BitVec.eq_of_toNat_eq he
      have h2 := congrArg BitVec.toNat (BitVec.add_right_inj (addr) |>.1 h1)
      simp only [BitVec.toNat_ofNat] at h2
      rw [Nat.mod_eq_of_lt (by omega), Nat.mod_eq_of_lt (by omega)] at h2
      exact hin h2

theorem Memory.place_wf {m : Memory} (a : Nat) (bs : List Byte) (h : m.wf) : (m.place a bs).wf := by
  induction bs generalizing m a with
  | nil => exact h
  | cons b bs ih => exact ih _ (Memory.setByte_wf _ _ h)

/-- A bit of a value placed in a word. -/
theorem getLsbD_place {n : Nat} (v : BitVec n) (lo i : Nat) :
    (place k v lo).getLsbD i = (decide (i < k) && decide (lo ≤ i) && v.getLsbD (i - lo)) := by
  unfold place
  by_cases h : i < lo
  · simp [h, show ¬ lo ≤ i by omega]
  · by_cases hk : i < k
    · simp [h, hk, show lo ≤ i by omega]
    · simp [hk]

/-- A bit of a little-endian read (R23). -/
theorem Memory.getLsbD_read (m : Memory) (addr : BitVec w) (n i : Nat) :
    (m.read addr k n).getLsbD i =
      (decide (i < k) && decide (i < 8 * n) && (m.byte (addr + BitVec.ofNat w (i / 8)).toNat).getLsbD (i % 8)) := by
  induction n with
  | zero => simp [Memory.read]
  | succ n ih =>
    rw [Memory.read, BitVec.getLsbD_or, ih, getLsbD_place]
    by_cases hk : i < k
    · by_cases h1 : i < 8 * n
      · simp [hk, h1, show ¬ 8 * n ≤ i by omega, show i < 8 * (n + 1) by omega]
      · by_cases h2 : i < 8 * (n + 1)
        · simp [hk, h1, h2, show 8 * n ≤ i by omega, show i / 8 = n by omega, show i - 8 * n = i % 8 by omega]
        · simp [hk, h1, h2]
          intro _; exact BitVec.getLsbD_of_ge _ _ (by omega)
    · simp [hk]

end Sys2Proof.Machine
end

