-- ==== Sys2Proof/Laws/Decode.lean ====
section
/-!
SUPPORT. Small lemmas about register fields and about bits of placed fields.
-/

namespace Sys2Proof

@[simp] theorem regOf_regBits (r : Reg) : regOf (regBits r) = r := by
  apply Fin.ext; simp [regOf, regBits]

@[simp] theorem regBits_regOf (b : BitVec 5) : regBits (regOf b) = b := by
  apply BitVec.eq_of_toNat_eq; simp [regOf, regBits]

@[simp] theorem cregOf_cregBits (r : CReg) : cregOf (cregBits r) = r := by
  apply Fin.ext; simp [cregOf, cregBits]

@[simp] theorem cregBits_cregOf (b : BitVec 3) : cregBits (cregOf b) = b := by
  apply BitVec.eq_of_toNat_eq; simp [cregOf, cregBits]

@[simp] theorem src2Of_src2Bits (t : Src2) : src2Of (src2Bits t) = t := by cases t <;> rfl

@[simp] theorem src2Bits_src2Of (b : BitVec 1) : src2Bits (src2Of b) = b := by
  revert b; decide

/-! ### An immediate laid out as the figure has it reads back (R49); in B, J and CJ bit 0 is not stored and reads zero -/

@[simp] theorem immS_layS (imm : BitVec 12) : immS (layS imm) = imm := by
  ext i hi; interval_cases i <;> simp [immS, layS, place]

theorem immB_layB {imm : BitVec 13} (h : imm.getLsbD 0 = false) : immB (layB imm) = imm := by
  have h0 : imm[0] = false := h
  ext i hi
  interval_cases i <;> simp [immB, layB, place, h0]

theorem immJ_layJ {imm : BitVec 21} (h : imm.getLsbD 0 = false) : immJ (layJ imm) = imm := by
  have h0 : imm[0] = false := h
  ext i hi
  interval_cases i <;> simp [immJ, layJ, place, h0]

theorem immCJ_layCJ {imm : BitVec 12} (h : imm.getLsbD 0 = false) : immCJ (layCJ imm) = imm := by
  have h0 : imm[0] = false := h
  ext i hi
  interval_cases i <;> simp [immCJ, layCJ, place, h0]

/-- The bits of a slice are the bits of the word (R4). -/
theorem getLsbD_of_slice {n k lo : Nat} {w : BitVec n} {v : BitVec k} (h : w.extractLsb' lo k = v) {i : Nat}
    (hi : i < k) : w.getLsbD (lo + i) = v.getLsbD i := by
  rw [← h]; simp [hi]

/-- A number that fits survives as a field. -/
theorem toNat_ofNat_of_lt {n v : Nat} (h : v < 2 ^ n) : (BitVec.ofNat n v).toNat = v := by
  simp [Nat.mod_eq_of_lt h]

/-- The len field of a length 1 to 32 spells that length (R33, R45). -/
theorem lenOf_ofNat {len : Nat} (h1 : 1 ≤ len) (h2 : len ≤ 32) : lenOf (BitVec.ofNat 5 len) = len := by
  interval_cases len <;> rfl

/-- A length read from a len field is 1 to 32, and its own field again (R33). -/
theorem lenOf_bounds (l : BitVec 5) : 1 ≤ lenOf l ∧ lenOf l ≤ 32 ∧ BitVec.ofNat 5 (lenOf l) = l := by
  revert l; decide

end Sys2Proof
end

