-- ==== Sys2Proof/Laws/Examples.lean ====
section
/-!
SUPPORT. What one statement of an example routine does to the registers.
-/

namespace Sys2Proof.Machine

/-- Any register after a statement: the new field value in its destination (x0 keeps zero), every other as it was. -/
theorem readReg_evalStatement {w : Nat} (h : Hart w) (b : BfStatement) (q : Reg) :
    (evalStatement h b).readReg q =
      if q = b.rd ∧ b.rd ≠ 0 then bfxpValue (h.readReg b.rs1) (h.readReg b.rs2) b.start b.len b.dest
      else h.readReg q :=
  Hart.readReg_writeReg h b.rd q _

end Sys2Proof.Machine
end

