-- ==== Sys2Proof/Laws/PerInstr.lean ====
section
/-!
SUPPORT. Facts said of each instruction as syntax, one lemma per constructor.
-/

namespace Sys2Proof.Laws.LengthRule

/-- The encoded word tells its own length by bits 1:0, as R29 and R61 ask of every instruction. -/
def Statement (i : Instr) : Prop := (encode i).lengthOk = true

/-- Bits 1:0 of an OR of fields whose lowest field begins with 11. -/
theorem full_ok {w : BitVec 32} (h : w.extractLsb' 0 2 = 0b11#2) : (InstrWord.full w).lengthOk = true := by
  simp [InstrWord.lengthOk, h]

theorem bfxp (rd rs1 : CReg) (rs2 : Src2) (start len dest : Nat) : Statement (.bfxp rd rs1 rs2 start len dest) :=
  full_ok (by ext i hi; interval_cases i <;> simp [encodeBf, place])
theorem bfxpc (rd rs1 : CReg) (rs2 : Src2) (start len dest : Nat) : Statement (.bfxpc rd rs1 rs2 start len dest) :=
  full_ok (by ext i hi; interval_cases i <;> simp [encodeBf, place])
theorem addi (rd rs1 : Reg) (imm : BitVec 12) : Statement (.addi rd rs1 imm) :=
  full_ok (by ext i hi; interval_cases i <;> simp [encodeI, place])
theorem slli (rd rs1 : Reg) (shamt : Nat) : Statement (.slli rd rs1 shamt) :=
  full_ok (by ext i hi; interval_cases i <;> simp [encodeShift, place])
theorem srli (rd rs1 : Reg) (shamt : Nat) : Statement (.srli rd rs1 shamt) :=
  full_ok (by ext i hi; interval_cases i <;> simp [encodeShift, place])
theorem srai (rd rs1 : Reg) (shamt : Nat) : Statement (.srai rd rs1 shamt) :=
  full_ok (by ext i hi; interval_cases i <;> simp [encodeShift, place])
theorem or (rd rs1 rs2 : Reg) : Statement (.or rd rs1 rs2) :=
  full_ok (by ext i hi; interval_cases i <;> simp [encodeR, place])
theorem lw (rd rs1 : Reg) (imm : BitVec 12) : Statement (.lw rd rs1 imm) :=
  full_ok (by ext i hi; interval_cases i <;> simp [encodeI, place])
theorem sw (rs2 rs1 : Reg) (imm : BitVec 12) : Statement (.sw rs2 rs1 imm) :=
  full_ok (by ext i hi; interval_cases i <;> simp [encodeS, layS, place])
theorem bne (rs1 rs2 : Reg) (offset : BitVec 13) : Statement (.bne rs1 rs2 offset) :=
  full_ok (by ext i hi; interval_cases i <;> simp [encodeB, layB, place])
theorem jalr (rd rs1 : Reg) (imm : BitVec 12) : Statement (.jalr rd rs1 imm) :=
  full_ok (by ext i hi; interval_cases i <;> simp [encodeI, place])

/-- Bits 1:0 of a parcel that is not the first of a 32-bit word. -/
theorem half_ok {p : BitVec 16} {b : BitVec 2} (h : p.extractLsb' 0 2 = b) (hb : b ≠ 0b11#2) :
    (InstrWord.half p).lengthOk = true := by
  simp [InstrWord.lengthOk, isHalf, h, hb]

theorem cSrai (rd : CReg) (shamt : Nat) : Statement (.cSrai rd shamt) :=
  half_ok (b := 0b01#2) (by ext i hi; interval_cases i <;> simp [encodeCSrai, place]) (by decide)
theorem cJr (rs1 : Reg) : Statement (.cJr rs1) :=
  half_ok (b := 0b10#2) (by ext i hi; interval_cases i <;> simp [encodeCJr, place]) (by decide)

end Sys2Proof.Laws.LengthRule
end

