-- ==== Sys2Proof/Laws/Step.lean ====
section
/-!
SUPPORT. What a region check says, and one inversion lemma for `exec` and one for `step`: later proofs cite these
instead of unfolding the thirteen meanings.
-/

namespace Sys2Proof.Machine

variable {w : Nat}

theorem mayFetch_iff (cfg : Config) (a n : Nat) : mayFetch cfg a n = true ↔ cfg.Inside (some .text) a n := by
  simp [mayFetch, regionCovers, Config.Inside]

theorem mayLoad_iff (cfg : Config) (a n : Nat) : mayLoad cfg a n = true ↔ cfg.Inside none a n := by
  simp [mayLoad, regionCovers, Config.Inside]

theorem mayStore_iff (cfg : Config) (a n : Nat) : mayStore cfg a n = true ↔ cfg.Inside (some .data) a n := by
  simp [mayStore, regionCovers, Config.Inside]

/-- Everything an instruction that completes can have done: it wrote one register (x0 for none), set the pc, and, if it is `sw`,
stored four bytes. -/
theorem exec_next_cases {i : Instr} {s t : State} (h : exec i s = .next t) :
    ∃ (r : Reg) (v pc' : BitVec s.cfg.xlen.bits) (m : Memory),
      t = ⟨s.cfg, ((s.hart.writeReg r v).setPc pc').setMem m⟩ ∧
      (m = s.hart.mem ∨
        ∃ (rs2 rs1 : Reg) (imm : BitVec 12), i = .sw rs2 rs1 imm ∧
          (effectiveAddress s.hart rs1 imm).toNat % 4 = 0 ∧
          mayStore s.cfg (effectiveAddress s.hart rs1 imm).toNat 4 = true ∧
          m = s.hart.mem.write (effectiveAddress s.hart rs1 imm) (s.hart.readReg rs2) 4) ∧
      (pc' = s.hart.pc + BitVec.ofNat _ 4 ∨
        (pc' = s.hart.pc + BitVec.ofNat _ 2 ∧ ∃ rd shamt, i = .cSrai rd shamt) ∨
        pc'.toNat % s.cfg.ialignBytes = 0) := by
  have jump (h0 : Hart s.cfg.xlen.bits) (r v t' h') (he : h0 = s.hart.writeReg r v)
      (hj : h0.jumpTo s.cfg t' = .next h') :
      t'.toNat % s.cfg.ialignBytes = 0 ∧ h' = ((s.hart.writeReg r v).setPc t').setMem s.hart.mem := by
    rcases Hart.jumpTo_cases s.cfg h0 t' with ⟨ha, hn⟩ | ⟨-, hf⟩
    · rw [hn] at hj; cases hj; subst he
      exact ⟨ha, by unfold Hart.setMem Hart.setPc; simp⟩
    · rw [hf] at hj; cases hj
  have plain (r v n) : ((s.hart.writeReg r v).advance n) =
      ((s.hart.writeReg r v).setPc (s.hart.pc + BitVec.ofNat _ n)).setMem s.hart.mem := by
    unfold Hart.advance Hart.setMem Hart.setPc; simp
  cases i
  case bfxp | bfxpc | addi | slli | srli | srai | or =>
    simp only [exec, execBfxp, execBfxpc, execAddi, execSlli, execSrli, execSrai, execOr] at h
    obtain ⟨h', hh, rfl⟩ := State.onHart_next h; cases hh
    exact ⟨_, _, _, _, by rw [plain], .inl rfl, .inl rfl⟩
  case cSrai rd shamt =>
    simp only [exec, execCSrai] at h
    obtain ⟨h', hh, rfl⟩ := State.onHart_next h; cases hh
    exact ⟨_, _, _, _, by rw [plain], .inl rfl, .inr (.inl ⟨rfl, _, _, rfl⟩)⟩
  case lw rd rs1 imm =>
    simp only [exec, execLw] at h
    obtain ⟨h', hh, rfl⟩ := State.onHart_next h
    simp only [Hart.raise] at hh
    split at hh
    · cases hh
    · split at hh <;> cases hh
      exact ⟨_, _, _, _, by rw [plain], .inl rfl, .inl rfl⟩
  case sw rs2 rs1 imm =>
    simp only [exec, execSw] at h
    obtain ⟨h', hh, rfl⟩ := State.onHart_next h
    simp only [Hart.raise] at hh
    split at hh
    · cases hh
    · split at hh <;> cases hh
      exact ⟨0, 0, _, _, rfl, .inr ⟨rs2, rs1, imm, rfl, by omega, ‹_›, rfl⟩, .inl rfl⟩
  case bne rs1 rs2 offset =>
    simp only [exec, execBne] at h
    obtain ⟨h', hh, rfl⟩ := State.onHart_next h
    split at hh
    · obtain ⟨ha, rfl⟩ := jump _ 0 0 _ _ (by simp) hh
      exact ⟨_, _, _, _, rfl, .inl rfl, .inr (.inr ha)⟩
    · cases hh
      exact ⟨0, 0, _, _, by rw [← plain, Hart.writeReg_zero], .inl rfl, .inl rfl⟩
  case jalr rd rs1 imm =>
    simp only [exec, execJalr] at h
    obtain ⟨h', hh, rfl⟩ := State.onHart_next h
    obtain ⟨ha, rfl⟩ := jump _ _ _ _ _ rfl hh
    exact ⟨_, _, _, _, rfl, .inl rfl, .inr (.inr ha)⟩
  case cJr rs1 =>
    simp only [exec, execCJr] at h
    obtain ⟨h', hh, rfl⟩ := State.onHart_next h
    obtain ⟨ha, rfl⟩ := jump _ 0 0 _ _ (by simp) hh
    exact ⟨_, _, _, _, rfl, .inl rfl, .inr (.inr ha)⟩

/-- A step that completes ran the instruction it fetched, on a hart with no fault recorded. -/
theorem step_next_cases {s t : State} (h : step s = .next t) :
    s.hart.fault = none ∧ ∃ i, fetchDecode s.cfg s.hart = .ok i ∧ exec i s = .next t := by
  unfold step at h
  split at h
  · cases h
  · rename_i hf
    split at h
    · cases h
    · rename_i i hi
      exact ⟨hf, i, hi, h⟩

/-- A step of a hart with no fault recorded is its fetch and then its instruction. -/
theorem step_of_fetchDecode {s : State} (h : s.hart.fault = none) :
    step s = match fetchDecode s.cfg s.hart with
      | .error e => .fault e
      | .ok i    => exec i s := by
  cases hd : fetchDecode s.cfg s.hart <;> simp [step, h, hd]

/-- A hart with a fault recorded stays where it is (R82). -/
theorem step_of_fault {s : State} {e : Fault} (h : s.hart.fault = some e) : step s = .fault e := by
  unfold step; rw [h]

end Sys2Proof.Machine
end

