-- ==== Sys2Proof/Tests/Slice0.lean ====
section
/-!
SUPPORT. The model's own tests. Words and expected values are those of 95_test_vectors.md unless a docstring says which rule they
were worked out from by hand. Then, for every statement with hypotheses, a witness that meets them.
-/

namespace Sys2Proof.Tests

open Sys2Proof Sys2Proof.Machine

/-! ### Small machines and states -/

/-- The map of the spec's programs: text [0, 0x100), data [0x1000, 0x1020). -/
def machine (x : Xlen) (c : Bool) : Config where
  xlen    := x
  hasC    := c
  memmap  := [⟨0, 0x100, .text⟩, ⟨0x1000, 0x20, .data⟩]
  resetPc := 0
  haltPc  := 0x100

/-- A hart with the given registers, the others zero. -/
def hart (w pc : Nat) (regs : List (Reg × Nat)) (mem : Memory) : Hart w :=
  regs.foldl (fun h p => h.writeReg p.1 (BitVec.ofNat w p.2))
    { regs := Vector.replicate 31 0, pc := BitVec.ofNat w pc, mem := mem, fault := none }

/-- A state whose next instruction is the given word; `mem` is what memory holds beside it. -/
def at_ (cfg : Config) (pc : Nat) (regs : List (Reg × Nat)) (iw : InstrWord) (mem : Memory := []) : State :=
  ⟨cfg, hart cfg.xlen.bits pc regs (mem.place pc iw.bytes)⟩

abbrev rv32 : Config := machine .rv32 true
abbrev rv64 : Config := machine .rv64 true
abbrev rv32noC : Config := machine .rv32 false

/-- A register after one step. -/
def regAfter (s : State) (r : Reg) : Nat := ((stepState s).hart.readReg r).toNat
/-- The pc after one step. -/
def pcAfter (s : State) : Nat := (stepState s).hart.pc.toNat
/-- A byte after one step. -/
def byteAfter (s : State) (a : Nat) : Byte := (stepState s).hart.mem.byte a
/-- The fault record after one step. -/
def faultAfter (s : State) : Option Fault := (stepState s).hart.fault

/-! ### WellFormed refuses an ill-formed term for each of its checks -/

theorem test_wellFormed_bfxp_len_zero : (Instr.bfxp 0 0 .zero 0 0 0).wellFormed rv64 = false := by decide
theorem test_wellFormed_bfxp_len_32_on_rv32 : (Instr.bfxp 0 0 .zero 0 32 0).wellFormed rv32 = false := by decide
theorem test_wellFormed_bfxp_len_33_on_rv64 : (Instr.bfxp 0 0 .zero 0 33 0).wellFormed rv64 = false := by decide
theorem test_wellFormed_bfxp_start : (Instr.bfxp 2 3 .zero 2 31 0).wellFormed rv32 = false := by decide
theorem test_wellFormed_bfxpc_dest : (Instr.bfxpc 2 3 .zero 0 31 2).wellFormed rv32 = false := by decide
theorem test_wellFormed_slli_shamt : (Instr.slli 1 1 32).wellFormed rv32 = false := by decide
theorem test_wellFormed_srli_shamt : (Instr.srli 1 1 32).wellFormed rv32 = false := by decide
theorem test_wellFormed_srai_shamt : (Instr.srai 1 1 64).wellFormed rv64 = false := by decide
theorem test_wellFormed_bne_odd : (Instr.bne 1 2 3).wellFormed rv32 = false := by decide
theorem test_wellFormed_cSrai_without_c : (Instr.cSrai 2 20).wellFormed rv32noC = false := by decide
theorem test_wellFormed_cSrai_zero : (Instr.cSrai 2 0).wellFormed rv32 = false := by decide
theorem test_wellFormed_cSrai_shamt : (Instr.cSrai 2 32).wellFormed rv32 = false := by decide
theorem test_wellFormed_cJr_without_c : (Instr.cJr 1).wellFormed rv32noC = false := by decide
theorem test_wellFormed_cJr_x0 : (Instr.cJr 0).wellFormed rv32 = false := by decide

/-! ### Decoding: words written out field by field from the encodings, bit 31 first -/

/-- R31: start[3:0] len[3:0] dest rs1' start[5:4] len[4] bit 11 rs2* rd' opcode, for `bfxp a1, a0, zero, 7, 5, 20`. -/
theorem test_decode_bfxp :
    decode32 .rv32 0b0111_0101_010100_010_00_0_0_0_011_1111011#32 = .ok (.bfxp 3 2 .zero 7 5 20) := by decide
/-- R31, R52: `bfxpc a0, a1, a0, 31, 1, 31`. -/
theorem test_decode_bfxpc :
    decode32 .rv32 0b1111_0001_011111_011_01_0_1_1_010_1111011#32 = .ok (.bfxpc 2 3 .rd 31 1 31) := by decide
/-- R61, R62: `addi a3, a3, -1`. -/
theorem test_decode_addi :
    decode32 .rv32 0b111111111111_01101_000_01101_0010011#32 = .ok (.addi 13 13 (-1)) := by decide
/-- R63: `slli a1, a1, 36`, on RV64 only. -/
theorem test_decode_slli :
    decode32 .rv64 0b000000_100100_01011_001_01011_0010011#32 = .ok (.slli 11 11 36) ∧
    decode32 .rv32 0b000000_100100_01011_001_01011_0010011#32 = .error .shamtPastXlen := by decide
/-- R64: `srli a0, a0, 27`. -/
theorem test_decode_srli :
    decode32 .rv32 0b000000_011011_01010_101_01010_0010011#32 = .ok (.srli 10 10 27) := by decide
/-- R65: `srai a0, a1, 20`. -/
theorem test_decode_srai :
    decode32 .rv32 0b010000_010100_01011_101_01010_0010011#32 = .ok (.srai 10 11 20) := by decide
/-- R61, R66: `or a0, a1, a2`, three different registers. -/
theorem test_decode_or :
    decode32 .rv32 0b0000000_01100_01011_110_01010_0110011#32 = .ok (.or 10 11 12) := by decide
/-- R61, R67: `lw a0, -4(a2)`. -/
theorem test_decode_lw :
    decode32 .rv32 0b111111111100_01100_010_01010_0000011#32 = .ok (.lw 10 12 (-4)) := by decide
/-- R49, R61, R68: `sw t0, -20(sp)`. -/
theorem test_decode_sw :
    decode32 .rv32 0b1111111_00101_00010_010_01100_0100011#32 = .ok (.sw 5 2 (-20)) := by decide
/-- R49, R61, R69: `bne a3, zero, -20`, and the offset 0x800 (imm[11], bit 7) alone. -/
theorem test_decode_bne :
    decode32 .rv32 0b1_111111_00000_01101_001_0110_1_1100011#32 = .ok (.bne 13 0 (-20)) ∧
    decode32 .rv32 0b0_000000_00000_01101_001_0000_1_1100011#32 = .ok (.bne 13 0 0x800) := by decide
/-- R61, R70: `jalr ra, 2(a0)`. -/
theorem test_decode_jalr :
    decode32 .rv32 0b000000000010_01010_000_00001_1100111#32 = .ok (.jalr 1 10 2) := by decide
/-- R61, R72: `c.srai a0, 20`, and shamt[5] on RV64. -/
theorem test_decode_cSrai :
    decode16 rv32 0b100_0_01_010_10100_01#16 = .ok (.cSrai 2 20) ∧
    decode16 rv64 0b100_1_01_010_10100_01#16 = .ok (.cSrai 2 52) := by decide
/-- R61, R73: `c.jr ra`. -/
theorem test_decode_cJr : decode16 rv32 0b1000_00001_00000_10#16 = .ok (.cJr 1) := by decide

/-- Section 3 of the vectors: reserved words next to legal ones. -/
theorem test_decode_reserved :
    decode32 .rv32 0x2F01917B#32 = .error .startPastXlen ∧ decode32 .rv64 0x2F01917B#32 = .ok (.bfxp 2 3 .zero 2 31 0) ∧
    decode32 .rv32 0x0F09917B#32 = .error .destPastXlen ∧ decode32 .rv64 0x0101F17B#32 = .error .startPastXlen ∧
    decode32 .rv64 0x00C5F17B#32 = .error .destPastXlen ∧ decode32 .rv64 0x00C1F17B#32 = .ok (.bfxp 2 3 .zero 48 16 48) := by decide

/-- The bytes of P1c from 008: `c.srai a1, 20` and what follows it. -/
theorem test_decode_bytes : decode rv32 [0xD1, 0x85, 0x82, 0x80] = .ok (.cSrai 3 20, [0x82, 0x80]) := by decide

/-- R45 and C1: the last statement of `decode_s` has no encoding, its rewrite in P1 has one. -/
theorem test_assemble :
    assembleBf .rv32 false 10 10 11 25 7 25 = none ∧
    (assembleBf .rv32 false 11 10 11 25 7 25).map encode = some (.full 0x976525FB#32) := by decide

/-- R49 and the table of section 1.3: `jal ra, -2`, J-type 0x12344, `c.j -2` and CJ-type 0x554. -/
theorem test_immediates :
    immJ 0xFFFFF0EF#32 = -2 ∧ immJ 0x3441206F#32 = 0x12344 ∧ immCJ 0xBFFD#16 = -2 ∧ immCJ 0xAB91#16 = 0x554 := by decide

/-- The words of section 1.2: those of `decode_cj`, and the last statements of the other three. -/
theorem test_routine_words :
    decodeCJRoutine.statements.map (BfStatement.word .rv32) =
      [some (.full 0xB16101FB#32), some (.full 0x927105FB#32), some (.full 0x817905FB#32), some (.full 0x716905FB#32),
       some (.full 0x616D05FB#32), some (.full 0x335505FB#32), some (.full 0x216505FB#32), none] ∧
    decodeBRoutine.statements.map (BfStatement.word .rv32) =
      [some (.full 0x717901FB#32), some (.full 0x966125FB#32), some (.full 0x845105FB#32), none] ∧
    decodeJRoutine.statements.map (BfStatement.word .rv32) =
      [some (.full 0x5A3121FB#32), some (.full 0x415925FB#32), some (.full 0xC85D05FB#32), none] ∧
    decodeSRoutine.statements.map (BfStatement.word .rv32) = [some (.full 0x755101FB#32), none] := by decide

/-- The table of section 1.3, from a1 = 0xDEADBEEF; and C6 on RV64. -/
theorem test_routines :
    decodeSRoutine.result (hart 32 0 [(10, 0x54000AA3), (11, 0xDEADBEEF)] []) = 0x555#32 ∧
    decodeBRoutine.result (hart 32 0 [(10, 0x80001063), (11, 0xDEADBEEF)] []) = 0xFFFFF000#32 ∧
    decodeJRoutine.result (hart 32 0 [(10, 0x3441206F), (11, 0xDEADBEEF)] []) = 0x12344#32 ∧
    decodeCJRoutine.result (hart 32 0 [(10, 0x246D), (11, 0xDEADBEEF)] []) = 0x2AA#32 ∧
    decodeJRoutine.result (hart 64 0 [(10, 0xFFFFF0EF)] []) = 0x1FFFFE#64 := by decide

/-- R12, R44: the statements as the spec writes them. -/
theorem test_text :
    (Instr.bfxp 3 2 .zero 7 5 20).text = "bfxp a1, a0, zero, 7, 5, 20" ∧
    (Instr.bfxpc 2 3 .rd 31 1 31).text = "bfxpc a0, a1, a0, 31, 1, 31" ∧
    (Instr.sw 5 2 (-20)).text = "sw t0, -20(sp)" ∧ (Instr.cSrai 2 20).text = "c.srai a0, 20" := by decide

/-! ### One step of each instruction -/

theorem test_bfxp_replaces_window :
    regAfter (at_ rv32 0 [(11, 0xAABBCCDD), (10, 0x12345678)] (.full 0x8841857B#32)) 10 = 0x12CC5678 := by decide
/-- P5 on RV64: a length of 32, spelt by len field 0. -/
theorem test_bfxp_len_32 :
    regAfter (at_ rv64 4 [(8, 0xFFFFFFFFFFFFFFFF)] (.full 0x0000007B#32)) 8 = 0xFFFFFFFF := by decide
theorem test_bfxpc_complements_first_source :
    regAfter (at_ rv32 0 [(11, 0xAABBCCDD)] (.full 0x8841897B#32)) 10 = 0x00330000 := by decide
/-- P3: the second source is not complemented. -/
theorem test_bfxpc_keeps_second_source :
    regAfter (at_ rv32 8 [(10, 0x1234ABCD), (11, 0x0000CDAB)] (.full 0x00413DFB#32)) 11 = 0xEDCBCDAB := by decide
theorem test_addi_wraps : regAfter (at_ rv32 0 [] (.full 0xFFF68693#32)) 13 = 0xFFFFFFFF := by decide
theorem test_slli : regAfter (at_ rv32 0 [(11, 0xF000000A)] (.full 0x00459593#32)) 11 = 0xA0 := by decide
theorem test_srli : regAfter (at_ rv32 0 [(10, 0xF8000000)] (.full 0x01B55513#32)) 10 = 0x1F := by decide
theorem test_srai : regAfter (at_ rv32 0 [(11, 0xFEC00000)] (.full 0x4145D513#32)) 10 = 0xFFFFFFEC := by decide
theorem test_srai_rv64 : regAfter (at_ rv64 0 [(11, 0xFEC00000)] (.full 0x4145D513#32)) 10 = 0xFEC := by decide
theorem test_or : regAfter (at_ rv32 0 [(10, 0x0F0F0000), (11, 0x00FF00FF)] (.full 0x00B56533#32)) 10 = 0x0FFF00FF := by decide
/-- R23, R67, by hand: the word 0x80000001, sign-extended on RV64. -/
theorem test_lw_sign_extends :
    regAfter (at_ rv64 0 [(12, 0x1000)] (.full 0x00062503#32) [(0x1000, 1), (0x1003, 0x80)]) 10 = 0xFFFFFFFF80000001 := by decide
theorem test_lw_misaligned :
    faultAfter (at_ rv32 0 [(12, 0x1002)] (.full 0x00062503#32)) = some (.loadAddressMisaligned 0 0x1002) := by decide
theorem test_sw :
    let s := at_ rv32 0 [(11, 0xA23F), (12, 0x1010)] (.full 0x00B62023#32) [(0x1012, 7), (0x1014, 9)]
    byteAfter s 0x1010 = 0x3F ∧ byteAfter s 0x1011 = 0xA2 ∧ byteAfter s 0x1012 = 0 ∧ byteAfter s 0x1014 = 9 := by decide
/-- R28: a store into text. -/
theorem test_sw_text :
    faultAfter (at_ rv32 0 [(12, 0x10)] (.full 0x00B62023#32)) = some (.storeAccessFault 0 0x10) := by decide
theorem test_bne_taken : pcAfter (at_ rv32 0x1C [(13, 3)] (.full 0xFE0696E3#32)) = 8 := by decide
theorem test_bne_not_taken : pcAfter (at_ rv32 0x1C [] (.full 0xFE0696E3#32)) = 0x20 := by decide
theorem test_jalr_clears_bit_0 : pcAfter (at_ rv32 0 [(1, 0x101)] (.full 0x00008067#32)) = 0x100 := by decide
/-- R70, by hand: `jalr ra, 0(ra)`, the source and the link in one register. -/
theorem test_jalr_link :
    let s := at_ rv32 8 [(1, 0x40)] (.full 0x000080E7#32)
    pcAfter s = 0x40 ∧ regAfter s 1 = 0xC := by decide
theorem test_cSrai :
    let s := at_ rv32 0 [(10, 0xFEC00000)] (.half 0x8551#16)
    regAfter s 10 = 0xFFFFFFEC ∧ pcAfter s = 2 := by decide
theorem test_cJr : pcAfter (at_ rv32 0 [(1, 0x100)] (.half 0x8082#16)) = 0x100 := by decide
/-- P1c with HAS_C false. -/
theorem test_compressed_absent :
    faultAfter (at_ rv32noC 8 [] (.half 0x85D1#16)) = some (.illegalInstruction 8 0x85D1) := by decide
/-- P5 on RV32: nothing but the fault record changes. -/
theorem test_reserved_word :
    let s := at_ rv32 4 [(8, 0xFFFFFFFF)] (.full 0x0000007B#32)
    faultAfter s = some (.illegalInstruction 4 0x7B) ∧ pcAfter s = 4 ∧ regAfter s 8 = 0xFFFFFFFF := by decide
theorem test_ecall_refused :
    faultAfter (at_ rv32 0 [] (.full 0x00000073#32)) = some (.illegalInstruction 0 0x73) := by decide

/-- The host's two questions on one word of each length. -/
theorem test_decodeTableWord :
    decodeTableWord 32 0x0081857B = some (.bfxp 2 3 .rd 0 32 32) ∧ decodeTableWord 16 0x8551 = some (.cSrai 2 20) := by decide
theorem test_withFetchWord :
    pcAfter (State.reset.withFetchWord 16 0x8551) = 0x80000002 ∧
    regAfter (State.reset.withFetchWord 32 0x00400693) 13 = 4 := by decide

/-! ### A witness for the hypotheses of every statement that has some -/

theorem witness_DecodeOfEncodedInstruction :
    (Instr.bfxp 0 7 .rd 32 32 0).wellFormed rv64 = true ∧ (Instr.bfxpc 7 0 .zero 1 31 1).wellFormed rv32 = true ∧
    (Instr.slli 1 2 31).wellFormed rv32 = true ∧ (Instr.srai 1 2 63).wellFormed rv64 = true ∧
    (Instr.bne 1 2 0x1FFE).wellFormed rv32 = true ∧ (Instr.cSrai 7 31).wellFormed rv32 = true ∧
    (Instr.cJr 31).wellFormed rv32 = true := by decide

theorem witness_DecodedWordIsItsEncoding :
    decodeWord rv32 (.full 0x1F01917B#32) = .ok (.bfxp 2 3 .zero 1 31 0) ∧ decodeWord rv32 (.half 0x8082#16) = .ok (.cJr 1) := by decide

theorem witness_DecodedWordHasOneTableRow :
    decodeWord rv64 (.full 0xF1FDED7B#32) = .ok (.bfxpc 2 3 .rd 63 1 63) ∧ rowsOf (.full 0xF1FDED7B#32) = ["bfxpc"] := by decide

/-- A len field of 0 on RV32, and accepted words of both instructions at both widths. -/
theorem witness_BfFieldsOfDecodedWord :
    (0x0000007B#32).extractLsb' 0 7 = 0b1111011#7 ∧
    (0x0000007B : Nat) / 2 ^ 12 % 2 * 16 + 0x0000007B / 2 ^ 24 % 16 = 0 ∧
    decode32 .rv64 0x0000007B#32 = .ok (.bfxp 0 0 .zero 0 32 0) ∧
    decode32 .rv32 0xF17DAD7B#32 = .ok (.bfxpc 2 3 .rd 31 1 31) := by decide

/-- Each of (a), (b), (c) alone, and both sums at XLEN. -/
theorem witness_ReservedExactlyWhenWindowLeavesRegister :
    (0xFFFFF87B#32).extractLsb' 0 7 = 0b1111011#7 ∧
    decode32 .rv32 0x0000007B#32 = .error .lenFieldZero ∧ decode32 .rv32 0x2F01917B#32 = .error .startPastXlen ∧
    decode32 .rv32 0x0F09917B#32 = .error .destPastXlen ∧ decode32 .rv64 0x1001C57B#32 = .error .startPastXlen ∧
    decode32 .rv32 0xF17DAD7B#32 = .ok (.bfxpc 2 3 .rd 31 1 31) ∧ decode32 .rv64 0x0081C57B#32 = .ok (.bfxp 2 3 .rd 32 32 32) := by decide

theorem witness_Rv32HighImmediateBitsReserved :
    ((0x0101C17B#32).extractLsb' 0 7 = 0b1111011#7 ∧ (0x0101C17B#32).getLsbD 14 = true ∧ (0x0101C17B#32).getLsbD 23 = false) ∧
    ((0x0181817B#32).extractLsb' 0 7 = 0b1111011#7 ∧ (0x0181817B#32).getLsbD 14 = false ∧ (0x0181817B#32).getLsbD 23 = true) := by decide

/-- Bits 14:12 set with bit 24 set; with bits 31:24 clear and dest 48, then 49; bit 14; bits 13:12 with bit 24. -/
theorem witness_Funct3AllOnesCorner :
    ((0x0101F17B#32).extractLsb' 12 3 = 0b111#3 ∧ (0x0101F17B#32).extractLsb' 24 8 ≠ 0#8) ∧
    ((0x00C1F17B#32).extractLsb' 12 3 = 0b111#3 ∧ (0x00C1F17B#32).extractLsb' 24 8 = 0#8 ∧ ((0x00C1F17B#32).extractLsb' 18 6).toNat = 48) ∧
    ((0x00C5F17B#32).extractLsb' 12 3 = 0b111#3 ∧ ((0x00C5F17B#32).extractLsb' 18 6).toNat = 49) ∧
    ((0x0101C17B#32).getLsbD 14 = true ∧ (0x0101C17B#32).extractLsb' 0 7 = 0b1111011#7) ∧
    ((0x0101B17B#32).extractLsb' 12 2 = 0b11#2 ∧ (0x0101B17B#32).extractLsb' 24 8 ≠ 0#8) := by decide

theorem witness_Rv32BfWordsMeanTheSameOnRv64 :
    (0x1F01917B#32).extractLsb' 0 7 = 0b1111011#7 ∧ decode32 .rv32 0x1F01917B#32 = .ok (.bfxp 2 3 .zero 1 31 0) := by decide

theorem witness_AssemblesExactlyWhenEncodable :
    assembleBf .rv32 false 11 10 0 7 5 20 = some (.bfxp 3 2 .zero 7 5 20) ∧
    assembleBf .rv64 true 10 11 10 63 1 63 = some (.bfxpc 2 3 .rd 63 1 63) := by decide

/-- Both sums at XLEN. -/
theorem witness_BfxpBitByBit : 1 ≤ 31 ∧ 1 + 31 ≤ Xlen.rv32.bits ∧ 1 + 31 ≤ Xlen.rv32.bits ∧ 31 < Xlen.rv32.bits := by decide

theorem witness_ShiftFormWhenWindowIsZero :
    1 ≤ 8 ∧ 24 + 8 ≤ Xlen.rv32.bits ∧ 8 + 8 ≤ Xlen.rv32.bits ∧ (∀ i < 16, 8 ≤ i → (0xFFFF00FF#32).getLsbD i = false) := by decide

/-- `start + len` and `dest + len` at XLEN, with an index outside the window. -/
theorem witness_ExtractInsertAndComplementLaws :
    1 ≤ 32 ∧ 32 + 32 ≤ Xlen.rv64.bits ∧ 32 + 32 ≤ Xlen.rv64.bits ∧ (31 < 32 ∨ 32 + 32 ≤ 31) := by decide

/-- Adjacent windows. -/
theorem witness_DisjointPlacementsCommute :
    1 ≤ 8 ∧ 0 + 8 ≤ Xlen.rv32.bits ∧ 8 + 8 ≤ Xlen.rv32.bits ∧ 8 + 8 ≤ Xlen.rv32.bits ∧ 0 + 8 ≤ Xlen.rv32.bits ∧
    (8 + 8 ≤ 0 ∨ 0 + 8 ≤ 8) := by decide

theorem witness_LowHalfAgreesAcrossXlen : 1 ≤ 8 ∧ 24 + 8 ≤ 32 ∧ 24 + 8 ≤ 32 := by decide

/-- A legal word at a boundary, and a reserved one that stands at the pc. -/
theorem witness_BfxpPlacesTheField :
    (0x1F01917B#32 &&& 0x0000087F#32 = 0x0000007B#32 ∧ decode32 .rv32 0x1F01917B#32 = .ok (.bfxp 2 3 .zero 1 31 0)) ∧
    (0x2F01917B#32 &&& 0x0000087F#32 = 0x0000007B#32 ∧ 2 + 31 > rv32.xlen.bits ∧
      Standing rv32 (at_ rv32 0 [] (.full 0x2F01917B#32)).hart (.full 0x2F01917B#32)) ∧
    rv32.xlen.BfLegal 1 31 0 ∧ rv64.xlen.BfLegal 32 32 32 := by decide

theorem witness_BfxpcPlacesTheComplement :
    (0xF1FDED7B#32 &&& 0x0000087F#32 = 0x0000087B#32 ∧ decode32 .rv64 0xF1FDED7B#32 = .ok (.bfxpc 2 3 .rd 63 1 63)) ∧
    (0x0000087B#32 &&& 0x0000087F#32 = 0x0000087B#32 ∧
      Standing rv32 (at_ rv32 0 [] (.full 0x0000087B#32)).hart (.full 0x0000087B#32)) ∧
    rv64.xlen.BfLegal 63 1 63 ∧ rv32.xlen.BfLegal 31 1 31 := by decide

/-- Two harts that agree on x8 to x15 and differ in x1. -/
theorem witness_BfInstructionsStayInX8ToX15 :
    let g := hart 32 0 [(1, 5), (10, 7)] []
    let h := hart 32 0 [(1, 6), (10, 7)] []
    g.pc = h.pc ∧ (∀ c : CReg, g.readReg c.toReg = h.readReg c.toReg) ∧ g ≠ h := by decide

theorem witness_OneRegisterCopiesItsOwnField : rv32.xlen.BfLegal 0 8 24 ∧ rv64.xlen.BfLegal 32 32 0 := by decide

theorem witness_AddiAddsModuloXlen : 0xFFF68693#32 &&& 0x0000707F#32 = 0x00000013#32 := by decide

/-- The three words; a shift amount of XLEN - 1; an RV32 word with bit 25 set that stands at the pc. -/
theorem witness_ShiftImmediatesMoveBits :
    (0x00459593#32 &&& 0xFC00707F#32 = 0x00001013#32 ∧ ((0x00459593#32).extractLsb' 20 6).toNat < Xlen.rv32.bits) ∧
    (0x01B55513#32 &&& 0xFC00707F#32 = 0x00005013#32 ∧ ((0x01B55513#32).extractLsb' 20 6).toNat < Xlen.rv32.bits) ∧
    (0x4145D513#32 &&& 0xFC00707F#32 = 0x40005013#32 ∧ ((0x4145D513#32).extractLsb' 20 6).toNat < Xlen.rv32.bits) ∧
    31 < rv32.xlen.bits ∧ 63 < rv64.xlen.bits ∧
    (0x02459593#32 &&& 0xFC00707F#32 = 0x00001013#32 ∧ (0x02459593#32).getLsbD 25 = true ∧
      Standing rv32 (at_ rv32 0 [] (.full 0x02459593#32)).hart (.full 0x02459593#32)) := by decide

theorem witness_OrJoinsBits : 0x00B56533#32 &&& 0xFE00707F#32 = 0x00006033#32 := by decide

/-- A misaligned address; one past the last word of the map, and the gap between the regions; the last word of each region. -/
theorem witness_LwLoadsFourBytes :
    0x00062503#32 &&& 0x0000707F#32 = 0x00002003#32 ∧
    0x1002 % 4 ≠ 0 ∧
    (0x1020 % 4 = 0 ∧ ¬ rv32.Inside none 0x1020 4) ∧ (0x100 % 4 = 0 ∧ ¬ rv32.Inside none 0x100 4) ∧
    (0x101C % 4 = 0 ∧ rv32.Inside none 0x101C 4) ∧ (0xFC % 4 = 0 ∧ rv32.Inside none 0xFC 4) := by decide

/-- The same for a store, which text refuses too; a hart in a canonical memory with a nonzero byte. -/
theorem witness_SwStoresFourBytes :
    0x00B62023#32 &&& 0x0000707F#32 = 0x00002023#32 ∧
    Memory.wf [(0x1010, 5)] ∧ 0x1011 % 4 ≠ 0 ∧
    (0xFC % 4 = 0 ∧ ¬ rv32.Inside (some .data) 0xFC 4) ∧ (0x1020 % 4 = 0 ∧ ¬ rv32.Inside (some .data) 0x1020 4) ∧
    (0x101C % 4 = 0 ∧ rv32.Inside (some .data) 0x101C 4) := by decide

/-- Taken to an aligned target; taken to one that is 2 modulo 4 without HAS_C; not taken. -/
theorem witness_BneBranchesOnInequality :
    let h := hart 32 0x1C [(13, 3)] []
    0xFE0696E3#32 &&& 0x0000707F#32 = 0x00001063#32 ∧
    (h.readReg 13 ≠ h.readReg 0 ∧ (h.pc + (-20 : BitVec 13).signExtend 32).toNat % rv32.ialignBytes = 0) ∧
    (h.readReg 13 ≠ h.readReg 0 ∧ (h.pc + (-18 : BitVec 13).signExtend 32).toNat % rv32noC.ialignBytes ≠ 0) ∧
    h.readReg 12 = h.readReg 0 := by decide

/-- An odd sum with HAS_C; a target that is 2 modulo 4 without. -/
theorem witness_JalrLinksAndJumps :
    let h := hart 32 0 [(1, 0x103)] []
    0x00008067#32 &&& 0x0000707F#32 = 0x00000067#32 ∧
    (0x102#32).toNat = (h.readReg 1 + (0 : BitVec 12).signExtend 32).toNat / 2 * 2 ∧
    (0x102#32).toNat % rv32.ialignBytes = 0 ∧ (0x102#32).toNat % rv32noC.ialignBytes ≠ 0 := by decide

theorem witness_RetReturnsThroughRa :
    (0x102#32).toNat = ((hart 32 0 [(1, 0x103)] []).readReg 1).toNat / 2 * 2 ∧ (0x102#32).toNat % rv32.ialignBytes = 0 ∧
    (0x100#32).toNat = ((hart 32 0 [(1, 0x101)] []).readReg 1).toNat / 2 * 2 ∧ (0x100#32).toNat % rv32noC.ialignBytes = 0 := by
  decide

/-- Shift amounts 20, 0 and, on RV32, 32. -/
theorem witness_CSraiShiftsInPlace :
    rv32.hasC = true ∧ 0x8551#16 &&& 0xEC03#16 = 0x8401#16 ∧
    (0x8501#16 &&& 0xEC03#16 = 0x8401#16 ∧
      ((0x8501#16).extractLsb' 12 1).toNat * 32 + ((0x8501#16).extractLsb' 2 5).toNat = 0 ∧
      Standing rv32 (at_ rv32 0 [] (.half 0x8501#16)).hart (.half 0x8501#16)) ∧
    (0x9501#16 &&& 0xEC03#16 = 0x8401#16 ∧
      ((0x9501#16).extractLsb' 12 1).toNat * 32 + ((0x9501#16).extractLsb' 2 5).toNat = 32 ∧
      Standing rv32 (at_ rv32 0 [] (.half 0x9501#16)).hart (.half 0x9501#16)) ∧
    31 < rv32.xlen.bits := by decide

theorem witness_CJrJumpsToRegister :
    rv32.hasC = true ∧ (0x8082#16 &&& 0xF07F#16 = 0x8002#16 ∧ (0x8082#16).extractLsb' 7 5 ≠ 0#5) ∧
    (0x8002#16 &&& 0xF07F#16 = 0x8002#16 ∧ (0x8002#16).extractLsb' 7 5 = 0#5 ∧
      Standing rv32 (at_ rv32 0 [] (.half 0x8002#16)).hart (.half 0x8002#16)) ∧
    (0x102#32).toNat = ((hart 32 0 [(1, 0x103)] []).readReg 1).toNat / 2 * 2 := by decide

theorem witness_DataAccessesAreLittleEndian :
    let h : Hart rv64.xlen.bits := hart 64 0 [(11, 0xFFFFFFFF), (12, 0x101C)] []
    h.mem.wf ∧ ∃ h1, exec (.sw 11 12 0) ⟨rv64, h⟩ = .next ⟨rv64, h1⟩ := ⟨by decide, _, rfl⟩

theorem witness_MemoriesThatReadAlikeAreEqual :
    Memory.wf [(0, 1), (0x1000, 5)] ∧ ∀ a, Memory.byte [(0, 1), (0x1000, 5)] a = Memory.byte [(0, 1), (0x1000, 5)] a :=
  ⟨by decide, fun _ => rfl⟩

theorem witness_MisalignedAccessChangesNothing :
    let h := hart 32 0 [(12, 0x1002)] []
    (h.readReg 12 + (0 : BitVec 12).signExtend 32).toNat % 4 ≠ 0 ∧ h.fault = none := by decide

/-- A store completes beside a text byte. -/
theorem witness_TextIsImmutable :
    let s := at_ rv32 0 [(11, 7), (12, 0x1000)] (.full 0x00B62023#32)
    (s.cfg.WellFormed ∧ s.hart.mem.wf ∧ (∃ t, step s = .next t) ∧ s.cfg.InText 0xFF) ∧ (0xFC % 4 = 0 ∧ s.cfg.InText 0xFC) :=
  ⟨⟨by decide, by decide, ⟨_, rfl⟩, by decide⟩, by decide⟩

theorem witness_OnlySwChangesMemory :
    let s := at_ rv32 0 [(11, 7), (12, 0x101C)] (.full 0x00B62023#32)
    s.hart.mem.wf ∧ ∃ t, step s = .next t ∧ t.hart.mem.byte 0x101C ≠ s.hart.mem.byte 0x101C :=
  ⟨by decide, _, rfl, by decide⟩

theorem witness_X0IsHardwired : (31 : Reg) ≠ 0 ∧ (1 : Reg) ≠ 31 := by decide

theorem witness_LaunchLeavesResetState : rv32.WellFormed ∧ Config.reset.WellFormed ∧ (31 : Reg) ≠ 0 := by decide

theorem witness_StepRunsDecodedInstruction :
    (Instr.addi 13 0 4).wellFormed rv32 = true ∧
    Standing rv32 (at_ rv32 2 [] (encode (.addi 13 0 4))).hart (encode (.addi 13 0 4)) ∧
    Standing rv32 (at_ rv32 0xFE [] (encode (.cJr 1))).hart (encode (.cJr 1)) := by decide

/-- A pc that is 2 modulo 4 without HAS_C; one outside text; a 16-bit parcel; a 32-bit word whose second parcel leaves text; one
that is whole. -/
theorem witness_StepFollowsTheFetchRule :
    2 % rv32noC.ialignBytes ≠ 0 ∧ (0x100 % rv32.ialignBytes = 0 ∧ ¬ rv32.Inside (some .text) 0x100 2) ∧
    (0xFE % rv32.ialignBytes = 0 ∧ rv32.Inside (some .text) 0xFE 2 ∧ 0x8082 % 4 ≠ 3) ∧
    (0x0693 % 4 = 3 ∧ ¬ rv32.Inside (some .text) (0xFE#32 + 2#32).toNat 2) ∧
    (rv32.Inside (some .text) 0xFC 2 ∧ rv32.Inside (some .text) (0xFC#32 + 2#32).toNat 2) ∧
    (hart 32 0xFE [] []).fault = none ∧ rv32noC.hasC = false ∧ (0x7B#32).extractLsb' 0 7 = 0b1111011#7 := by decide

theorem witness_ReservedWordRaisesIllegalInstruction :
    (0x7B#32).extractLsb' 0 7 = 0b1111011#7 ∧ decode32 rv32.xlen 0x7B#32 = .error .lenFieldZero ∧
    Standing rv32 (at_ rv32 4 [] (.full 0x7B#32)).hart (.full 0x7B#32) := by decide

/-- No encoding is the parcel of all zeros: the two 16-bit instructions have a 1 in bits 1:0. -/
theorem witness_UnadmittedWordRaisesIllegalInstruction :
    (∀ i : Instr, i.wellFormed rv32 = true → encode i ≠ .half 0#16) ∧
    Standing rv32 (at_ rv32 0 [] (.half 0#16)).hart (.half 0#16) := by
  refine ⟨fun i _ h => ?_, by decide⟩
  cases i <;> simp only [encode, InstrWord.half.injEq, reduceCtorEq] at h
  · exact absurd (congrArg (BitVec.getLsbD · 0) h) (by simp [encodeCSrai, place])
  · exact absurd (congrArg (BitVec.getLsbD · 1) h) (by simp [encodeCJr, place])

theorem witness_FaultIsPreciseAndTerminal :
    let s := at_ rv32 0 [(12, 0x1002)] (.full 0x00062503#32)
    s.hart.fault = none ∧ step s = .fault (.loadAddressMisaligned 0 0x1002) := ⟨by decide, rfl⟩

/-- One fault of each kind. -/
theorem witness_OnlyListedInstructionsRaise :
    exec (.jalr 1 0 2) ⟨rv32noC, hart 32 0 [] []⟩ = .fault (.instructionAddressMisaligned 0 2) ∧
    exec (.lw 1 0 2) ⟨rv32, hart 32 0 [] []⟩ = .fault (.loadAddressMisaligned 0 2) ∧
    exec (.lw 1 0 0x100) ⟨rv32, hart 32 0 [] []⟩ = .fault (.loadAccessFault 0 0x100) ∧
    exec (.sw 1 0 2) ⟨rv32, hart 32 0 [] []⟩ = .fault (.storeAddressMisaligned 0 2) ∧
    exec (.sw 1 0 0) ⟨rv32, hart 32 0 [] []⟩ = .fault (.storeAccessFault 0 0) := ⟨rfl, rfl, rfl, rfl, rfl⟩

theorem witness_StepIsNeverRefused : ∃ t, step (at_ rv32 0 [] (.half 0x8551#16)) = .next t := ⟨_, rfl⟩

/-- A state with a listed byte, at a pc that is 2 modulo 4. -/
theorem witness_StepKeepsInvariant :
    let s := at_ rv32 2 [(11, 7), (12, 0x1000)] (.full 0x00B62023#32) [(0x1010, 9)]
    s.Inv ∧ ∃ t, step s = .next t := ⟨by decide, _, rfl⟩

theorem witness_RunsKeepTextAndInvariant :
    let s := at_ rv32 0 [(11, 7), (12, 0x1000)] (.full 0x00B62023#32)
    s.cfg.WellFormed ∧ s.Inv ∧ s.cfg.InText 0 ∧ ∃ t, Sys2Proof.core.run 1 s = .next t :=
  ⟨by decide, by decide, by decide, _, rfl⟩

/-- A `ret` that reaches HALT_PC, and a run that faults. -/
theorem witness_RunsEndOnlyAtHaltPc :
    (∃ t, run 1 (at_ rv32 0 [(1, 0x100)] (.full 0x00008067#32)) = .final t) ∧
    (∃ t, run 1 (at_ rv32 0 [] (.full 0x00000073#32)) = .faulted t) := ⟨⟨_, rfl⟩, ⟨_, rfl⟩⟩

theorem witness_PlacedWordRunsNext :
    let h := hart 32 0xFC [] []
    (h.mem.wf ∧ h.fault = none ∧ h.pc.toNat % rv32.ialignBytes = 0 ∧ rv32.Inside (some .text) h.pc.toNat 2 ∧
      rv32.Inside (some .text) (h.pc + 2#32).toNat 2 ∧ decodeWord rv32 (.full 0x00400693#32) = .ok (.addi 13 0 4)) ∧
    decodeWord rv32 (.half 0x8082#16) = .ok (.cJr 1) := by decide

end Sys2Proof.Tests
end

/-! ### The state: registers -/

namespace Sys2Proof.Machine

/-- A register other than x0 keeps what is written to it (R10). -/
theorem Hart.readReg_writeReg_self_of_ne_zero {w : Nat} (h : Hart w) {r : Reg} (v : BitVec w) (hr : r ≠ 0) :
    (h.writeReg r v).readReg r = v := by
  rw [Hart.readReg_writeReg_same, if_neg hr]

/-- Settles O36, from the read-after-write lemmas of the register file. -/
theorem x0IsHardwired : Obligations.X0IsHardwired := by
  intro w h v
  refine ⟨h.readReg_zero, h.writeReg_zero v, fun r hr => ⟨?written, fun q hq => ?others⟩, CReg.toReg_ne_zero⟩
  case written => exact h.readReg_writeReg_self_of_ne_zero v hr
  case others => exact h.readReg_writeReg_ne v hq

end Sys2Proof.Machine

/-! ### Faults: what a step that faults leaves behind -/

namespace Sys2Proof.Machine

/-- The first fault is written into the record, and nothing else changes (R82). -/
theorem Hart.recordFault_of_no_fault {w : Nat} {h : Hart w} (hf : h.fault = none) (e : Fault) :
    h.recordFault e = { h with fault := some e } := by
  unfold Hart.recordFault; rw [hf]

/-- What an instruction that faults leaves behind, where no fault was recorded before it (R82). -/
theorem settle_of_fault {s : State} {o : Host.Outcome State Fault Refusal} {e : Fault} (ho : o = .fault e)
    (hf : s.hart.fault = none) : s.settle o = ⟨s.cfg, { s.hart with fault := some e }⟩ := by
  rw [ho, State.settle_fault, Hart.recordFault_of_no_fault hf]

end Sys2Proof.Machine

/-! ### Regions of an admitted machine -/

namespace Sys2Proof

/-- An access that lies inside a region of some kind lies inside a region of any kind (R25). -/
theorem Config.Inside.of_kind {cfg : Config} {kind : Option RegionKind} {a n : Nat} :
    cfg.Inside kind a n → cfg.Inside none a n
  | ⟨r, hr, _, hbounds⟩ => ⟨r, hr, by simp, hbounds⟩

/-- Regions lie in the address space, so an access inside one does not wrap (R25). -/
theorem Config.WellFormed.end_le {cfg : Config} (hcfg : cfg.WellFormed) {kind : Option RegionKind} {a n : Nat} :
    cfg.Inside kind a n → a + n ≤ 2 ^ cfg.xlen.bits := by
  obtain ⟨hfits, -⟩ := hcfg
  rintro ⟨r, hr, -, -, hend⟩
  exact hend.trans (hfits r hr)

/-- Regions do not overlap, so no byte of an access inside a data region is in text (R25, R28). -/
theorem Config.WellFormed.not_inText_of_inside_data {cfg : Config} (hcfg : cfg.WellFormed) {a n i : Nat}
    (hdata : cfg.Inside (some .data) a n) (hi : i < n) : ¬ cfg.InText (a + i) := by
  rintro ⟨q, hq, hqtext, hqlo, hqhi⟩
  obtain ⟨r, hr, hrkind, hrlo, hrhi⟩ := hdata
  obtain ⟨-, hdisj, -⟩ := hcfg
  have hsymm : Std.Symm Region.Disjoint := ⟨fun _ _ => Or.symm⟩
  have hne : r ≠ q := by
    rintro rfl
    simp [hqtext] at hrkind
  have : r.Disjoint q := hdisj.forall hr hq hne
  omega

end Sys2Proof

/-! ### Memory: the addresses of an access, and a read of what was written -/

namespace Sys2Proof.Machine

section
variable {w k : Nat}

/-- Addresses are computed modulo 2^XLEN (R21, R23). -/
theorem toNat_addr_add (addr : BitVec w) (i : Nat) :
    (addr + BitVec.ofNat w i).toNat = (addr.toNat + i) % 2 ^ w := by
  simp

/-- Byte `i` of a read that is no wider than its result is the byte at the `i`-th address (R23). -/
theorem Memory.extractLsb'_read (m : Memory) (addr : BitVec w) {n i : Nat} (hi : i < n) (hk : 8 * n ≤ k) :
    (m.read addr k n).extractLsb' (8 * i) 8 = m.byte (addr + BitVec.ofNat w i).toNat := by
  apply BitVec.eq_of_getLsbD_eq
  intro j hj
  have hdiv : (8 * i + j) / 8 = i := by omega
  have hmod : (8 * i + j) % 8 = j := by omega
  rw [BitVec.getLsbD_extractLsb', Memory.getLsbD_read, hdiv, hmod]
  simp [hj, show 8 * i + j < k by omega, show 8 * i + j < 8 * n by omega]

/-- A read from the address of a write gives the bits written, when no address of the access repeats (R23). -/
theorem Memory.read_write {j : Nat} {m : Memory} (addr : BitVec w) (v : BitVec j) {n : Nat} (hm : m.wf)
    (hn : n ≤ 2 ^ w) (hk : k ≤ 8 * n) : (m.write addr v n).read addr k n = v.setWidth k := by
  apply BitVec.eq_of_getLsbD_eq
  intro i hi
  have hbyte := Memory.byte_write addr v n (i / 8) hm (by omega) hn
  rw [Memory.getLsbD_read, hbyte, BitVec.getLsbD_extractLsb', BitVec.getLsbD_setWidth, Nat.div_add_mod]
  simp [hi, show i < 8 * n by omega, Nat.mod_lt]

end

/-- No address of a four-byte access repeats. -/
theorem four_le_two_pow_bits (x : Xlen) : 4 ≤ 2 ^ x.bits := by
  cases x <;> decide

end Sys2Proof.Machine

/-! ### lw and sw: one equation per outcome, and what a store or a step that completes has done -/

namespace Sys2Proof.Machine

@[simp] theorem effectiveAddress_advance {w : Nat} (h : Hart w) (n : Nat) (rs1 : Reg) (imm : BitVec 12) :
    effectiveAddress (h.advance n) rs1 imm = effectiveAddress h rs1 imm := rfl

@[simp] theorem effectiveAddress_setMem {w : Nat} (h : Hart w) (m : Memory) (rs1 : Reg) (imm : BitVec 12) :
    effectiveAddress (h.setMem m) rs1 imm = effectiveAddress h rs1 imm := rfl

section
variable {cfg : Config} {h : Hart cfg.xlen.bits} {rd rs1 rs2 : Reg} {imm : BitVec 12}

theorem exec_lw_of_misaligned (ha : (effectiveAddress h rs1 imm).toNat % 4 ≠ 0) :
    exec (.lw rd rs1 imm) ⟨cfg, h⟩ =
      .fault (.loadAddressMisaligned h.pc.toNat (effectiveAddress h rs1 imm).toNat) := by
  simp [exec, execLw, State.onHart, Hart.raise, ha]

theorem exec_lw_of_inside (ha : (effectiveAddress h rs1 imm).toNat % 4 = 0)
    (hin : cfg.Inside none (effectiveAddress h rs1 imm).toNat 4) :
    exec (.lw rd rs1 imm) ⟨cfg, h⟩ =
      .next ⟨cfg, (h.writeReg rd (sext _ (h.mem.read (effectiveAddress h rs1 imm) 32 4))).advance 4⟩ := by
  simp [exec, execLw, State.onHart, ha, (mayLoad_iff _ _ _).2 hin]

theorem exec_sw_of_misaligned (ha : (effectiveAddress h rs1 imm).toNat % 4 ≠ 0) :
    exec (.sw rs2 rs1 imm) ⟨cfg, h⟩ =
      .fault (.storeAddressMisaligned h.pc.toNat (effectiveAddress h rs1 imm).toNat) := by
  simp [exec, execSw, State.onHart, Hart.raise, ha]

theorem exec_sw_of_not_inside (ha : (effectiveAddress h rs1 imm).toNat % 4 = 0)
    (hout : ¬ cfg.Inside (some .data) (effectiveAddress h rs1 imm).toNat 4) :
    exec (.sw rs2 rs1 imm) ⟨cfg, h⟩ =
      .fault (.storeAccessFault h.pc.toNat (effectiveAddress h rs1 imm).toNat) := by
  simp [exec, execSw, State.onHart, Hart.raise, ha, mt (mayStore_iff _ _ _).1 hout]

theorem exec_sw_of_inside (ha : (effectiveAddress h rs1 imm).toNat % 4 = 0)
    (hin : cfg.Inside (some .data) (effectiveAddress h rs1 imm).toNat 4) :
    exec (.sw rs2 rs1 imm) ⟨cfg, h⟩ =
      .next ⟨cfg, (h.setMem (h.mem.write (effectiveAddress h rs1 imm) (h.readReg rs2) 4)).advance 4⟩ := by
  simp [exec, execSw, State.onHart, ha, (mayStore_iff _ _ _).2 hin]

/-- A `sw` that completes has an aligned address inside a data region, and stored its four bytes there (R68). -/
theorem exec_sw_next {h' : Hart cfg.xlen.bits} (hx : exec (.sw rs2 rs1 imm) ⟨cfg, h⟩ = .next ⟨cfg, h'⟩) :
    (effectiveAddress h rs1 imm).toNat % 4 = 0 ∧
    cfg.Inside (some .data) (effectiveAddress h rs1 imm).toNat 4 ∧
    h' = (h.setMem (h.mem.write (effectiveAddress h rs1 imm) (h.readReg rs2) 4)).advance 4 := by
  by_cases ha : (effectiveAddress h rs1 imm).toNat % 4 = 0
  · by_cases hin : cfg.Inside (some .data) (effectiveAddress h rs1 imm).toNat 4
    · rw [exec_sw_of_inside ha hin] at hx
      cases hx
      exact ⟨ha, hin, rfl⟩
    · rw [exec_sw_of_not_inside ha hin] at hx
      cases hx
  · rw [exec_sw_of_misaligned ha] at hx
    cases hx

end

/-- A step that completes leaves memory as it was, or ran a `sw` and stored its four bytes inside a data region
(the column "Written by" of R18, R25). -/
theorem step_next_mem {s t : State} (h : step s = .next t) :
    t.hart.mem = s.hart.mem ∨
    ∃ (rs2 rs1 : Reg) (imm : BitVec 12), fetchDecode s.cfg s.hart = .ok (.sw rs2 rs1 imm) ∧
      s.cfg.Inside (some .data) (effectiveAddress s.hart rs1 imm).toNat 4 ∧
      t.hart.mem = s.hart.mem.write (effectiveAddress s.hart rs1 imm) (s.hart.readReg rs2) 4 := by
  obtain ⟨-, i, hfetch, hexec⟩ := step_next_cases h
  obtain ⟨r, v, pc', m, rfl, hmem, -⟩ := exec_next_cases hexec
  refine hmem.imp_right ?_
  rintro ⟨rs2, rs1, imm, rfl, -, hstore, hm⟩
  exact ⟨rs2, rs1, imm, hfetch, (mayStore_iff _ _ _).1 hstore, hm⟩

/-- A four-byte store inside a data region of an admitted machine leaves the text as it was (R28). -/
theorem byte_write_of_inText {cfg : Config} (hcfg : cfg.WellFormed) {m : Memory} (hm : m.wf)
    {addr : BitVec cfg.xlen.bits} (v : BitVec cfg.xlen.bits) (hin : cfg.Inside (some .data) addr.toNat 4)
    {a : Nat} (ha : cfg.InText a) : (m.write addr v 4).byte a = m.byte a := by
  refine Memory.byte_write_ne addr v 4 a hm fun i hi heq => ?_
  have hend : addr.toNat + 4 ≤ 2 ^ cfg.xlen.bits := hcfg.end_le hin
  have hnowrap : a = addr.toNat + i := by
    rw [heq, toNat_addr_add, Nat.mod_eq_of_lt (by omega)]
  exact hcfg.not_inText_of_inside_data hin hi (hnowrap ▸ ha)

/-! ### The obligations of 20_memory.md -/

/-- Settles O34: the one write a step can make is a store inside a data region, and no data region meets text. -/
theorem textIsImmutable : Obligations.TextIsImmutable := by
  refine ⟨fun s t hcfg hwf hstep a ha => ?step, ?store⟩
  case step =>
    obtain hsame | ⟨rs2, rs1, imm, -, hin, hmem⟩ := step_next_mem hstep
    · rw [hsame]
    · rw [hmem]
      exact byte_write_of_inText hcfg hwf _ hin ha
  case store =>
    intro cfg h rs2 rs1 imm hcfg addr haligned htext
    exact exec_sw_of_not_inside haligned fun hin => hcfg.not_inText_of_inside_data (i := 0) hin (by omega) htext

/-- Settles O31, from the laws of reads and writes byte by byte; the load after a completed store reads what it wrote. -/
theorem dataAccessesAreLittleEndian : Obligations.DataAccessesAreLittleEndian := by
  refine ⟨fun x m addr i hi => ?read, fun x m addr v hm => ⟨fun i hi => ?written, fun a ha => ?frame⟩,
    fun cfg h h1 rs2 rs1 rd imm hm hsw => ?loadAfterStore⟩
  case read =>
    rw [← toNat_addr_add]
    exact m.extractLsb'_read addr hi le_rfl
  case written =>
    rw [← toNat_addr_add]
    exact Memory.byte_write addr v 4 i hm hi (four_le_two_pow_bits x)
  case frame =>
    simp only [← toNat_addr_add] at ha
    exact Memory.byte_write_ne addr v 4 a hm ha
  case loadAfterStore =>
    obtain ⟨haligned, hin, rfl⟩ := exec_sw_next hsw
    refine ⟨_, exec_lw_of_inside haligned hin.of_kind, ?_⟩
    have hread := Memory.read_write (k := 32) (effectiveAddress h rs1 imm) (h.readReg rs2) hm
      (four_le_two_pow_bits cfg.xlen) le_rfl
    simp [Hart.readReg_writeReg_same, hread, sext]

/-- Settles O33: alignment is checked first, so the access faults, and a fault leaves only its record. -/
theorem misalignedAccessChangesNothing : Obligations.MisalignedAccessChangesNothing := by
  intro cfg h r rs1 imm addr hmisaligned hf
  have hlw := exec_lw_of_misaligned (rd := r) hmisaligned
  have hsw := exec_sw_of_misaligned (rs2 := r) hmisaligned
  exact ⟨⟨hlw, settle_of_fault hlw hf⟩, ⟨hsw, settle_of_fault hsw hf⟩⟩

end Sys2Proof.Machine

/-! ### Fields as numbers -/

namespace Sys2Proof

section
variable {k n : Nat}

/-- A slice of a word, by division (R4). -/
theorem toNat_slice (w : BitVec n) (lo m : Nat) : (w.extractLsb' lo m).toNat = w.toNat / 2 ^ lo % 2 ^ m := by
  rw [BitVec.extractLsb'_toNat, Nat.shiftRight_eq_div_pow]

/-- A field that fits its word counts its value times the weight of its bit 0 (R45). -/
theorem toNat_place (v : BitVec n) {lo : Nat} (h : n + lo ≤ k) : (place k v lo).toNat = v.toNat * 2 ^ lo := by
  have hv : v.toNat * 2 ^ lo < 2 ^ k :=
    calc v.toNat * 2 ^ lo < 2 ^ n * 2 ^ lo := by gcongr; exact v.isLt
      _ = 2 ^ (n + lo) := (pow_add ..).symm
      _ ≤ 2 ^ k := by gcongr; omega
  have hn : v.toNat < 2 ^ k := v.isLt.trans_le (by gcongr; omega; omega)
  rw [place, BitVec.toNat_shiftLeft, BitVec.toNat_setWidth, Nat.shiftLeft_eq, Nat.mod_eq_of_lt hn, Nat.mod_eq_of_lt hv]

/-- A field ORed in above the bits set so far is added to them: the sum by which R45 computes a word. -/
theorem toNat_or_place {a : BitVec k} {v : BitVec n} {lo m : Nat} (ha : a.toNat = m) (hm : m < 2 ^ lo)
    (h : n + lo ≤ k) : (a ||| place k v lo).toNat = m + v.toNat * 2 ^ lo := by
  rw [BitVec.toNat_or, toNat_place v h, ha, Nat.or_comm, mul_comm, ← Nat.two_pow_add_eq_or_of_lt hm, Nat.add_comm]

/-- The signed number of a bit vector: its top bit has the weight of the sign (R49). -/
theorem toInt_eq_toNat_sub (v : BitVec (n + 1)) : v.toInt = (v.toNat : Int) - (v.toNat / 2 ^ n * 2 ^ (n + 1) : Nat) := by
  have hv := v.isLt
  rw [pow_succ] at hv ⊢
  rw [BitVec.toInt_eq_toNat_cond, pow_succ]
  split
  case isTrue hlow => rw [Nat.div_eq_of_lt (by omega)]; simp
  case isFalse hhigh =>
    have hsign : v.toNat / 2 ^ n = 1 := Nat.div_eq_of_lt_le (by omega) (by omega)
    simp [hsign]

end

/-! ### The operands and immediates of a word as numbers (R32 to R34, R49) -/

theorem toNat_bfStart (w : BitVec 32) : (bfStart w).toNat = w.toNat / 2 ^ 13 % 4 * 16 + w.toNat / 2 ^ 28 := by
  have hlow := toNat_place (k := 6) (w.extractLsb' 28 4) (lo := 0) (by omega)
  have hsum := toNat_or_place (v := w.extractLsb' 13 2) (lo := 4) hlow (by omega) (by omega)
  rw [bfStart, hsum, toNat_slice, toNat_slice]
  omega

theorem toNat_bfLenField (w : BitVec 32) :
    (bfLenField w).toNat = w.toNat / 2 ^ 12 % 2 * 16 + w.toNat / 2 ^ 24 % 16 := by
  have hlow := toNat_place (k := 5) (w.extractLsb' 24 4) (lo := 0) (by omega)
  have hsum := toNat_or_place (v := w.extractLsb' 12 1) (lo := 4) hlow (by omega) (by omega)
  rw [bfLenField, hsum, toNat_slice, toNat_slice]
  omega

theorem toNat_bfDest (w : BitVec 32) : (bfDest w).toNat = w.toNat / 2 ^ 18 % 64 :=
  toNat_slice w 18 6

theorem toNat_immS (w : BitVec 32) : (immS w).toNat = w.toNat / 2 ^ 25 * 2 ^ 5 + w.toNat / 2 ^ 7 % 2 ^ 5 := by
  have hlow := toNat_place (k := 12) (w.extractLsb' 7 5) (lo := 0) (by omega)
  have hsum := toNat_or_place (v := w.extractLsb' 25 7) (lo := 5) hlow (by omega) (by omega)
  rw [immS, hsum, toNat_slice, toNat_slice]
  omega

theorem toNat_immB (w : BitVec 32) :
    (immB w).toNat = w.toNat / 2 ^ 31 * 2 ^ 12 + w.toNat / 2 ^ 7 % 2 * 2 ^ 11 + w.toNat / 2 ^ 25 % 2 ^ 6 * 2 ^ 5 +
      w.toNat / 2 ^ 8 % 2 ^ 4 * 2 := by
  have h1 := toNat_place (k := 13) (w.extractLsb' 8 4) (lo := 1) (by omega)
  have h2 := toNat_or_place (v := w.extractLsb' 25 6) (lo := 5) h1 (by omega) (by omega)
  have h3 := toNat_or_place (v := w.extractLsb' 7 1) (lo := 11) h2 (by omega) (by omega)
  have h4 := toNat_or_place (v := w.extractLsb' 31 1) (lo := 12) h3 (by omega) (by omega)
  rw [immB, h4]
  simp only [toNat_slice]
  omega

theorem toNat_immJ (w : BitVec 32) :
    (immJ w).toNat = w.toNat / 2 ^ 31 * 2 ^ 20 + w.toNat / 2 ^ 12 % 2 ^ 8 * 2 ^ 12 + w.toNat / 2 ^ 20 % 2 * 2 ^ 11 +
      w.toNat / 2 ^ 21 % 2 ^ 10 * 2 := by
  have h1 := toNat_place (k := 21) (w.extractLsb' 21 10) (lo := 1) (by omega)
  have h2 := toNat_or_place (v := w.extractLsb' 20 1) (lo := 11) h1 (by omega) (by omega)
  have h3 := toNat_or_place (v := w.extractLsb' 12 8) (lo := 12) h2 (by omega) (by omega)
  have h4 := toNat_or_place (v := w.extractLsb' 31 1) (lo := 20) h3 (by omega) (by omega)
  rw [immJ, h4]
  simp only [toNat_slice]
  omega

theorem toNat_immCJ (p : BitVec 16) :
    (immCJ p).toNat = p.toNat / 2 ^ 12 % 2 * 2 ^ 11 + p.toNat / 2 ^ 8 % 2 * 2 ^ 10 + p.toNat / 2 ^ 9 % 2 ^ 2 * 2 ^ 8 +
      p.toNat / 2 ^ 6 % 2 * 2 ^ 7 + p.toNat / 2 ^ 7 % 2 * 2 ^ 6 + p.toNat / 2 ^ 2 % 2 * 2 ^ 5 +
      p.toNat / 2 ^ 11 % 2 * 2 ^ 4 + p.toNat / 2 ^ 3 % 2 ^ 3 * 2 := by
  have h1 := toNat_place (k := 12) (p.extractLsb' 3 3) (lo := 1) (by omega)
  have h2 := toNat_or_place (v := p.extractLsb' 11 1) (lo := 4) h1 (by omega) (by omega)
  have h3 := toNat_or_place (v := p.extractLsb' 2 1) (lo := 5) h2 (by omega) (by omega)
  have h4 := toNat_or_place (v := p.extractLsb' 7 1) (lo := 6) h3 (by omega) (by omega)
  have h5 := toNat_or_place (v := p.extractLsb' 6 1) (lo := 7) h4 (by omega) (by omega)
  have h6 := toNat_or_place (v := p.extractLsb' 9 2) (lo := 8) h5 (by omega) (by omega)
  have h7 := toNat_or_place (v := p.extractLsb' 8 1) (lo := 10) h6 (by omega) (by omega)
  have h8 := toNat_or_place (v := p.extractLsb' 12 1) (lo := 11) h7 (by omega) (by omega)
  rw [immCJ, h8]
  simp only [toNat_slice]
  omega

/-- Settles O50: each immediate is the sum of its fields, less the weight of the sign where its top bit is set. -/
theorem immediatesFollowTheFigure : Obligations.ImmediatesFollowTheFigure := by
  refine ⟨fun w => ⟨?immS, ?immB, ?immJ⟩, fun p => ?immCJ⟩
  case immS =>
    have hsign : (immS w).toNat / 2 ^ 11 = w.toNat / 2 ^ 31 := by rw [toNat_immS]; omega
    rw [toInt_eq_toNat_sub, hsign, toNat_immS]
  case immB =>
    have hsign : (immB w).toNat / 2 ^ 12 = w.toNat / 2 ^ 31 := by rw [toNat_immB]; omega
    rw [toInt_eq_toNat_sub, hsign, toNat_immB]
  case immJ =>
    have hsign : (immJ w).toNat / 2 ^ 20 = w.toNat / 2 ^ 31 := by rw [toNat_immJ]; omega
    rw [toInt_eq_toNat_sub, hsign, toNat_immJ]
  case immCJ =>
    have hsign : (immCJ p).toNat / 2 ^ 11 = p.toNat / 2 ^ 12 % 2 := by rw [toNat_immCJ]; omega
    rw [toInt_eq_toNat_sub, hsign, toNat_immCJ]

end Sys2Proof

/-! ### The decoder of custom-3: a word is legal exactly when its operands are (R38, R41) -/

namespace Sys2Proof

theorem lenOf_eq_ite (l : BitVec 5) : lenOf l = if l.toNat = 0 then 32 else l.toNat := by
  simp only [lenOf, BitVec.toNat_eq, BitVec.toNat_ofNat, Nat.zero_mod]

/-- Only len field 0 on RV32 spells a length that is too long (R33). -/
theorem lenOf_le_maxLen_iff (x : Xlen) (l : BitVec 5) : lenOf l ≤ x.maxLen ↔ ¬ (x = .rv32 ∧ l = 0#5) := by
  cases x <;> revert l <;> decide

/-- A 3-bit field names the register 8 above it (R36). -/
theorem toReg_cregOf_val (b : BitVec 3) : (cregOf b).toReg.val = 8 + b.toNat := rfl

/-- The selector bit of the second source (R37). -/
theorem src2Of_eq_rd_iff (b : BitVec 1) : src2Of b = .rd ↔ b.toNat = 1 := by
  revert b; decide

/-- The operand conditions of the BF format on the fields of a word. -/
abbrev BfLegalWord (x : Xlen) (w : BitVec 32) : Prop :=
  x.BfLegal (bfStart w).toNat (lenOf (bfLenField w)) (bfDest w).toNat

/-- The instruction that the fields of a legal word spell (R41). -/
def bfInstr (w : BitVec 32) : Instr :=
  (if w.extractLsb' 11 1 = 0#1 then Instr.bfxp else Instr.bfxpc) (cregOf (w.extractLsb' 7 3))
    (cregOf (w.extractLsb' 15 3)) (src2Of (w.extractLsb' 10 1)) (bfStart w).toNat (lenOf (bfLenField w))
    (bfDest w).toNat

section
variable {x : Xlen} {w : BitVec 32}

/-- A word is legal when none of the conditions (a), (b), (c) of R38 holds. -/
theorem bfLegalWord_iff : BfLegalWord x w ↔
    ¬ (x = .rv32 ∧ bfLenField w = 0#5) ∧
    ¬ x.bits < (bfStart w).toNat + lenOf (bfLenField w) ∧ ¬ x.bits < (bfDest w).toNat + lenOf (bfLenField w) := by
  obtain ⟨hpos, -⟩ := lenOf_bounds (bfLenField w)
  rw [BfLegalWord, Xlen.BfLegal, lenOf_le_maxLen_iff, Nat.not_lt, Nat.not_lt, and_iff_right hpos]

theorem not_bfLegalWord_iff : ¬ BfLegalWord x w ↔
    (x = .rv32 ∧ bfLenField w = 0#5) ∨
    x.bits < (bfStart w).toNat + lenOf (bfLenField w) ∨ x.bits < (bfDest w).toNat + lenOf (bfLenField w) := by
  rw [bfLegalWord_iff, ← not_or, ← not_or, not_not]

/-- Bit 14 of the word is the top bit of `start` (R32). -/
theorem le_toNat_bfStart (h : w.getLsbD 14 = true) : 32 ≤ (bfStart w).toNat := by
  have htop : (bfStart w).getLsbD 5 = w.getLsbD 14 := by simp [bfStart, place]
  exact Nat.ge_two_pow_of_testBit (htop.trans h)

/-- Bit 23 of the word is the top bit of `dest` (R34). -/
theorem le_toNat_bfDest (h : w.getLsbD 23 = true) : 32 ≤ (bfDest w).toNat := by
  have htop : (bfDest w).getLsbD 5 = w.getLsbD 23 := by simp [bfDest]
  exact Nat.ge_two_pow_of_testBit (htop.trans h)

/-- A custom-3 word is decoded by the BF format alone (R31, R41). -/
theorem decode32_of_custom3 (hop : w.extractLsb' 0 7 = 0b1111011#7) : decode32 x w = decodeCustom3 x w :=
  if_pos hop

theorem decodeCustom3_of_legal (h : BfLegalWord x w) : decodeCustom3 x w = .ok (bfInstr w) := by
  obtain ⟨hlen, hstart, hdest⟩ := bfLegalWord_iff.1 h
  rw [decodeCustom3, if_neg hlen, if_neg hstart, if_neg hdest, bfInstr]
  split <;> rfl

theorem decodeCustom3_of_not_legal (h : ¬ BfLegalWord x w) : ∃ r, decodeCustom3 x w = .error r := by
  unfold decodeCustom3
  by_cases hlen : x = .rv32 ∧ bfLenField w = 0#5
  · exact ⟨_, if_pos hlen⟩
  by_cases hstart : x.bits < (bfStart w).toNat + lenOf (bfLenField w)
  · exact ⟨_, (if_neg hlen).trans (if_pos hstart)⟩
  by_cases hdest : x.bits < (bfDest w).toNat + lenOf (bfLenField w)
  · exact ⟨_, (if_neg hlen).trans ((if_neg hstart).trans (if_pos hdest))⟩
  exact absurd (bfLegalWord_iff.2 ⟨hlen, hstart, hdest⟩) h

theorem decodeCustom3_error_iff : (∃ r, decodeCustom3 x w = .error r) ↔ ¬ BfLegalWord x w := by
  refine ⟨fun ⟨r, hr⟩ h => ?_, decodeCustom3_of_not_legal⟩
  rw [decodeCustom3_of_legal h] at hr
  cases hr

theorem decodeCustom3_ok_iff {i : Instr} : decodeCustom3 x w = .ok i ↔ BfLegalWord x w ∧ i = bfInstr w := by
  by_cases h : BfLegalWord x w
  · rw [decodeCustom3_of_legal h, Except.ok.injEq, eq_comm, and_iff_right h]
  · obtain ⟨r, hr⟩ := decodeCustom3_of_not_legal h
    simp [hr, h]

end

/-- Settles O6: the conditions of R38 on the fields, with each field read as a number. -/
theorem reservedExactlyWhenWindowLeavesRegister : Obligations.ReservedExactlyWhenWindowLeavesRegister := by
  intro x w hop
  have hlenf : bfLenField w = 0#5 ↔ (bfLenField w).toNat = 0 := BitVec.toNat_eq
  rw [decode32_of_custom3 hop, decodeCustom3_error_iff, not_bfLegalWord_iff, hlenf, lenOf_eq_ite, toNat_bfStart,
    toNat_bfLenField, toNat_bfDest]

/-- Settles O7: bit 14 adds 32 to `start` and bit 23 adds 32 to `dest`, and every length is at least 1. -/
theorem rv32HighImmediateBitsReserved : Obligations.Rv32HighImmediateBitsReserved := by
  intro w hop hbit
  rw [decode32_of_custom3 hop, decodeCustom3_error_iff]
  rintro ⟨⟨hpos, -⟩, hstart, hdest⟩
  rw [Xlen.bits] at hstart hdest
  obtain h14 | h23 := hbit
  · have := le_toNat_bfStart h14
    omega
  · have := le_toNat_bfDest h23
    omega

/-- Settles O5: an accepted word is legal and spells the instruction of its fields, each read as a number. -/
theorem bfFieldsOfDecodedWord : Obligations.BfFieldsOfDecodedWord := by
  intro x w hop
  dsimp only
  rw [decode32_of_custom3 hop, ← toNat_bfLenField, ← toNat_bfStart, ← toNat_bfDest, ← lenOf_eq_ite]
  refine ⟨fun hx h0 => ?reserved, fun i hi => ?accepted⟩
  case reserved =>
    have hlenf : bfLenField w = 0#5 := BitVec.eq_of_toNat_eq h0
    exact decodeCustom3_of_not_legal fun h => (bfLegalWord_iff.1 h).1 ⟨hx, hlenf⟩
  case accepted =>
    obtain ⟨⟨⟨hpos, hmax⟩, -, -⟩, rfl⟩ := decodeCustom3_ok_iff.1 hi
    have hcomp : w.extractLsb' 11 1 = 0#1 ↔ w.toNat / 2 ^ 11 % 2 = 0 := by
      rw [BitVec.toNat_eq, toNat_slice]; rfl
    have hrs2 : src2Of (w.extractLsb' 10 1) = .rd ↔ w.toNat / 2 ^ 10 % 2 = 1 := by
      rw [src2Of_eq_rd_iff, toNat_slice]; rfl
    refine ⟨cregOf (w.extractLsb' 7 3), cregOf (w.extractLsb' 15 3), _, _, _, _, ?instr, ?rd, ?rs1, hrs2, rfl, rfl, rfl,
      hpos, ?bound⟩
    case instr => rw [bfInstr, if_congr hcomp rfl rfl]
    case rd => rw [toReg_cregOf_val, toNat_slice]; rfl
    case rs1 => rw [toReg_cregOf_val, toNat_slice]; rfl
    case bound => cases x <;> exact hmax

end Sys2Proof

/-! ### The fetch step where an instruction word stands at the pc (R29) -/

namespace Sys2Proof

/-- Two neighbouring bytes of a word make the parcel they are cut from (R21). -/
theorem parcelOf_slices {n : Nat} (v : BitVec n) (lo : Nat) :
    parcelOf (v.extractLsb' lo 8) (v.extractLsb' (lo + 8) 8) = v.extractLsb' lo 16 := by
  apply BitVec.eq_of_getLsbD_eq
  intro i hi
  simp only [parcelOf, BitVec.getLsbD_or, Machine.getLsbD_place, BitVec.getLsbD_extractLsb', hi]
  by_cases hlow : i < 8
  · simp [hlow]
  · simp [hlow, show i - 8 < 8 by omega, show 8 ≤ i by omega, show lo + 8 + (i - 8) = lo + i by omega]

/-- The two parcels of a word make the word (R21, R29). -/
theorem wordOf_slices (w : BitVec 32) : wordOf (w.extractLsb' 0 16) (w.extractLsb' 16 16) = w := by
  apply BitVec.eq_of_getLsbD_eq
  intro i hi
  simp only [wordOf, BitVec.getLsbD_or, Machine.getLsbD_place, BitVec.getLsbD_extractLsb', hi]
  by_cases hlow : i < 16
  · simp [hlow]
  · simp [hlow, show i - 16 < 16 by omega, show 16 ≤ i by omega, show 16 + (i - 16) = i by omega]

theorem InstrWord.length_bytes (iw : InstrWord) : iw.bytes.length = iw.length := by
  cases iw <;> rfl

end Sys2Proof

namespace Sys2Proof.Machine

/-- A parcel is two bytes, low byte first (R21). -/
theorem parcelAt_eq {w : Nat} (m : Memory) (a : BitVec w) :
    parcelAt m a = parcelOf (m.byte a.toNat) (m.byte (a + BitVec.ofNat w 1).toNat) := by
  simp [parcelAt, Memory.read, parcelOf]

section
variable {cfg : Config} {h : Hart cfg.xlen.bits} {iw : InstrWord}

/-- Two neighbouring bytes of a standing word are the parcel read at the first one's address. -/
theorem parcelAt_of_standing {k : Nat} {lo hi : Byte} (hs : Standing cfg h iw) (hlo : iw.bytes[k]? = some lo)
    (hhi : iw.bytes[k + 1]? = some hi) : parcelAt h.mem (h.pc + BitVec.ofNat _ k) = parcelOf lo hi := by
  obtain ⟨-, -, -, hbytes, -⟩ := hs
  have hk : k + 1 < iw.length := iw.length_bytes ▸ (List.getElem?_eq_some_iff.1 hhi).1
  have h0 := (hbytes k (by omega)).trans hlo
  have h1 := (hbytes (k + 1) hk).trans hhi
  rw [parcelAt_eq, BitVec.add_assoc, ← BitVec.ofNat_add, Option.some.inj h0, Option.some.inj h1]

/-- The fetch step reads the word that stands at the pc (R29). -/
theorem fetch_of_standing (hs : Standing cfg h iw) : fetch cfg h = .ok iw := by
  have ⟨_, haligned, hlength, _, htext0, htext1⟩ := hs
  have hfetch0 := (mayFetch_iff _ _ _).2 htext0
  cases iw with
  | half p =>
    have hp : parcelAt h.mem h.pc = p := by
      simpa [parcelOf_slices p 0] using parcelAt_of_standing (k := 0) hs rfl rfl
    have hhalf : isHalf p = true := hlength
    simp [fetch, instrAligned, haligned, hfetch0, hp, hhalf]
  | full w =>
    have hp0 : parcelAt h.mem h.pc = w.extractLsb' 0 16 := by
      simpa [parcelOf_slices w 0] using parcelAt_of_standing (k := 0) hs rfl rfl
    have hp1 : parcelAt h.mem (h.pc + BitVec.ofNat _ 2) = w.extractLsb' 16 16 :=
      (parcelAt_of_standing hs rfl rfl).trans (parcelOf_slices w 16)
    have hfull : isHalf (w.extractLsb' 0 16) = false := by
      have hlow : (w.extractLsb' 0 16).extractLsb' 0 2 = w.extractLsb' 0 2 := by ext; simp
      rw [isHalf, hlow]
      simpa [InstrWord.lengthOk] using hlength
    have hfetch1 := (mayFetch_iff _ _ _).2 (htext1 rfl)
    simp [fetch, instrAligned, haligned, hfetch0, hp0, hfull, hfetch1, hp1, wordOf_slices, -BitVec.toNat_add]

/-- A word that stands at the pc and that the decoder rejects raises IllegalInstruction (R29, R81). -/
theorem step_of_standing_rejected {r : Reject} (hs : Standing cfg h iw) (hr : decodeWord cfg iw = .error r) :
    step ⟨cfg, h⟩ = .fault (.illegalInstruction h.pc.toNat iw.toNat) := by
  have hfd : fetchDecode cfg h = .error (.illegalInstruction h.pc.toNat iw.toNat) := by
    simp only [fetchDecode, fetch_of_standing hs, hr]
  obtain ⟨hnofault, -⟩ := hs
  rw [step_of_fetchDecode hnofault, hfd]

end

/-- Settles O41: the rejected word is fetched, so the step faults, and a fault leaves only its record. -/
theorem reservedWordRaisesIllegalInstruction : Obligations.ReservedWordRaisesIllegalInstruction := by
  intro cfg h w r _ hr hs
  have hstep := step_of_standing_rejected hs hr
  obtain ⟨hnofault, -⟩ := hs
  exact ⟨hstep, settle_of_fault hstep hnofault⟩

end Sys2Proof.Machine

/-! ### The bit-field function, bit by bit (R5, R50) -/

namespace Sys2Proof.Machine

section
variable {w : Nat} {a b : BitVec w} {start len dest i : Nat}

theorem getLsbD_ones (n i : Nat) : (ones w n).getLsbD i = (decide (i < w) && decide (i < n)) := by
  rw [ones, BitVec.getLsbD_ofNat, Nat.testBit_two_pow_sub_one]

/-- The mask keeps the bits of `b` outside the window and the field has none there; no operand condition is needed. -/
theorem getLsbD_bfxpValue (hi : i < w) :
    (bfxpValue a b start len dest).getLsbD i =
      if dest ≤ i ∧ i < dest + len then a.getLsbD (i - dest + start) else b.getLsbD i := by
  simp only [bfxpValue, BitVec.getLsbD_or, BitVec.getLsbD_and, BitVec.getLsbD_not, BitVec.getLsbD_shiftLeft,
    BitVec.getLsbD_ushiftRight, getLsbD_ones, hi, show i - dest < w by omega]
  by_cases hbelow : i < dest
  · simp [hbelow, show ¬ dest ≤ i by omega]
  by_cases habove : dest + len ≤ i
  · simp [hbelow, show ¬ i - dest < len by omega, show ¬ i < dest + len by omega]
  · simp [hbelow, show i - dest < len by omega, show dest ≤ i by omega, show i < dest + len by omega,
      start.add_comm]

/-- With the first source complemented, the window holds the complement of its field (R52). The field must lie inside the
source: a bit past its end reads as zero before and after the complement. -/
theorem getLsbD_bfxpValue_not (hs : start + len ≤ w) (hi : i < w) :
    (bfxpValue (~~~ a) b start len dest).getLsbD i =
      if dest ≤ i ∧ i < dest + len then !a.getLsbD (i - dest + start) else b.getLsbD i := by
  rw [getLsbD_bfxpValue hi]
  refine if_ctx_congr Iff.rfl (fun hwindow => ?_) fun _ => rfl
  simp [show i - dest + start < w by omega]

end

/-- Settles O12: R50 holds at any width, of any operands. -/
theorem bfxpBitByBit : Obligations.BfxpBitByBit := by
  intro x a b start len dest _ _ _ i hi
  exact getLsbD_bfxpValue hi

end Sys2Proof.Machine

/-! ### The words of bfxp and bfxpc (R41, R51, R52) -/

namespace Sys2Proof

/-- A word that matches a row's mask has the row's bits in every slice that the mask covers (R74). -/
theorem slice_of_masked {n k lo : Nat} {w mask pat : BitVec n} (h : w &&& mask = pat)
    (hmask : mask.extractLsb' lo k = BitVec.allOnes k) : w.extractLsb' lo k = pat.extractLsb' lo k := by
  rw [← h, BitVec.extractLsb'_and, hmask, BitVec.and_allOnes]

theorem toNat_bfStart_slices (w : BitVec 32) :
    (bfStart w).toNat = (w.extractLsb' 13 2).toNat * 16 + (w.extractLsb' 28 4).toNat := by
  have := w.isLt
  rw [toNat_bfStart, toNat_slice, toNat_slice]
  omega

theorem toNat_bfLenField_slices (w : BitVec 32) :
    (bfLenField w).toNat = (w.extractLsb' 12 1).toNat * 16 + (w.extractLsb' 24 4).toNat := by
  rw [toNat_bfLenField, toNat_slice, toNat_slice]
  rfl

/-- The selector of the second source as a bit of the word (R37). -/
theorem src2Of_slice (w : BitVec 32) (lo : Nat) :
    src2Of (w.extractLsb' lo 1) = if w.getLsbD lo = true then .rd else .zero := by
  have hbit : w.extractLsb' lo 1 = 1#1 ↔ w.getLsbD lo = true := by
    rw [BitVec.eq_of_getLsbD_eq_iff]
    simp
  rw [src2Of, if_congr hbit rfl rfl]

theorem decode32_of_legal {x : Xlen} {w : BitVec 32} (hop : w.extractLsb' 0 7 = 0b1111011#7) (h : BfLegalWord x w) :
    decode32 x w = .ok (bfInstr w) := by
  rw [decode32_of_custom3 hop, decodeCustom3_of_legal h]

end Sys2Proof

namespace Sys2Proof.Machine

theorem step_of_standing_not_legal {cfg : Config} {h : Hart cfg.xlen.bits} {w : BitVec 32}
    (hop : w.extractLsb' 0 7 = 0b1111011#7) (hw : ¬ BfLegalWord cfg.xlen w) (hs : Standing cfg h (.full w)) :
    step ⟨cfg, h⟩ = .fault (.illegalInstruction h.pc.toNat w.toNat) := by
  obtain ⟨r, hr⟩ := decodeCustom3_of_not_legal hw
  exact step_of_standing_rejected hs ((decode32_of_custom3 hop).trans hr)

/-- What the words of `bfxp` and of `bfxpc` have in common; `f` is the one that bit 11 selects (R35). -/
theorem bfWord_decodes_or_raises {cfg : Config} (h : Hart cfg.xlen.bits) {w : BitVec 32}
    {f : CReg → CReg → Src2 → Nat → Nat → Nat → Instr} (hop : w.extractLsb' 0 7 = 0b1111011#7)
    (hf : (if w.extractLsb' 11 1 = 0#1 then Instr.bfxp else Instr.bfxpc) = f) :
    let start := (w.extractLsb' 13 2).toNat * 16 + (w.extractLsb' 28 4).toNat
    let lenf := (w.extractLsb' 12 1).toNat * 16 + (w.extractLsb' 24 4).toNat
    let len := if lenf = 0 then 32 else lenf
    let dest := (w.extractLsb' 18 6).toNat
    (¬ (cfg.xlen = .rv32 ∧ lenf = 0) → start + len ≤ cfg.xlen.bits → dest + len ≤ cfg.xlen.bits →
      decode32 cfg.xlen w = .ok (f (cregOf (w.extractLsb' 7 3)) (cregOf (w.extractLsb' 15 3))
        (if w.getLsbD 10 = true then .rd else .zero) start len dest)) ∧
    ((cfg.xlen = .rv32 ∧ lenf = 0) ∨ start + len > cfg.xlen.bits ∨ dest + len > cfg.xlen.bits →
      Standing cfg h (.full w) → step ⟨cfg, h⟩ = .fault (.illegalInstruction h.pc.toNat w.toNat)) := by
  have hlenf : (bfLenField w).toNat = 0 ↔ bfLenField w = 0#5 := (BitVec.toNat_eq (y := 0#5)).symm
  dsimp only
  rw [← toNat_bfStart_slices, ← toNat_bfLenField_slices, ← lenOf_eq_ite, hlenf, ← src2Of_slice, ← hf]
  refine ⟨fun hlen hstart hdest => ?legal, fun hreserved => ?reserved⟩
  case legal => exact decode32_of_legal hop (bfLegalWord_iff.2 ⟨hlen, hstart.not_gt, hdest.not_gt⟩)
  case reserved => exact step_of_standing_not_legal hop (not_bfLegalWord_iff.2 hreserved)

end Sys2Proof.Machine

/-! ### The effect of bfxp and bfxpc (R51, R52) -/

namespace Sys2Proof.Machine

/-- The frame of every instruction that writes one register and goes to the next instruction. -/
theorem registerOnly_writeReg_advance {w : Nat} (h : Hart w) (rd : Reg) (v : BitVec w) (n : Nat) :
    RegisterOnly h ((h.writeReg rd v).advance n) rd v (h.pc + BitVec.ofNat w n) := by
  refine ⟨?written, fun r hr => ?others, ?pc, fun a => ?mem, ?fault⟩
  case written => rw [Hart.advance_readReg, Hart.readReg_writeReg_same]
  case others => rw [Hart.advance_readReg, Hart.readReg_writeReg_ne h v hr]
  all_goals simp

section
variable {cfg : Config} (h : Hart cfg.xlen.bits) (rd rs1 : CReg) (rs2 : Src2) (start len dest : Nat)

theorem exec_bfxp : exec (.bfxp rd rs1 rs2 start len dest) ⟨cfg, h⟩ =
    .next ⟨cfg, (h.writeReg rd.toReg (bfxpValue (h.readReg rs1.toReg) (bfSecond h rd rs2) start len dest)).advance 4⟩ :=
  rfl

theorem exec_bfxpc : exec (.bfxpc rd rs1 rs2 start len dest) ⟨cfg, h⟩ =
    .next ⟨cfg, (h.writeReg rd.toReg
      (bfxpValue (~~~ h.readReg rs1.toReg) (bfSecond h rd rs2) start len dest)).advance 4⟩ :=
  rfl

end

/-- The second source is the old `rd` or zero (R37). -/
theorem getLsbD_bfSecond {w : Nat} (h : Hart w) (rd : CReg) (rs2 : Src2) (i : Nat) :
    (bfSecond h rd rs2).getLsbD i = (decide (rs2 = .rd) && (h.readReg rd.toReg).getLsbD i) := by
  cases rs2 <;> simp [bfSecond]

/-- Settles O17: bit 11 of the word is clear, and the value written is the function of R50, bit by bit. -/
theorem bfxpPlacesTheField : Obligations.BfxpPlacesTheField := by
  refine ⟨fun cfg h w hw => ?words, fun cfg h rd rs1 rs2 start len dest _ => ?effect, by decide, by decide⟩
  case words =>
    have hcomp : w.extractLsb' 11 1 = 0#1 := slice_of_masked hw (by decide)
    exact bfWord_decodes_or_raises h (slice_of_masked hw (by decide)) (if_pos hcomp)
  case effect =>
    refine ⟨_, _, exec_bfxp h .., registerOnly_writeReg_advance h .., fun i hi => ?_⟩
    rw [getLsbD_bfxpValue hi, getLsbD_bfSecond]

/-- Settles O18: bit 11 of the word is set, and the value written is that of R50 with the first source complemented. -/
theorem bfxpcPlacesTheComplement : Obligations.BfxpcPlacesTheComplement := by
  refine ⟨fun cfg h w hw => ?words, fun cfg h rd rs1 rs2 start len dest hlegal => ?effect, by decide, by decide⟩
  case words =>
    have hcomp : w.extractLsb' 11 1 = 1#1 := slice_of_masked hw (by decide)
    exact bfWord_decodes_or_raises h (slice_of_masked hw (by decide)) (if_neg (by rw [hcomp]; decide))
  case effect =>
    obtain ⟨-, hstart, -⟩ := hlegal
    refine ⟨_, _, exec_bfxpc h .., registerOnly_writeReg_advance h .., fun i hi => ?_⟩
    rw [getLsbD_bfxpValue_not hstart hi, getLsbD_bfSecond]

end Sys2Proof.Machine

/-! ### The decoder of the support instructions: one equation per opcode (R61 to R70, R74) -/

namespace Sys2Proof

theorem Xlen.bits_pos (x : Xlen) : 0 < x.bits := by
  cases x <;> decide

section
variable {x : Xlen} {w : BitVec 32}

theorem decode32_of_opImm (hop : w.extractLsb' 0 7 = 0b0010011#7) : decode32 x w = decodeOpImm x w := by
  simp [decode32, hop]

theorem decode32_of_or (hop : w.extractLsb' 0 7 = 0b0110011#7) (hf3 : w.extractLsb' 12 3 = 0b110#3)
    (hf7 : w.extractLsb' 25 7 = 0b0000000#7) :
    decode32 x w = .ok (.or (regOf (w.extractLsb' 7 5)) (regOf (w.extractLsb' 15 5)) (regOf (w.extractLsb' 20 5))) := by
  simp [decode32, hop, hf3, hf7]

theorem decode32_of_lw (hop : w.extractLsb' 0 7 = 0b0000011#7) (hf3 : w.extractLsb' 12 3 = 0b010#3) :
    decode32 x w = .ok (.lw (regOf (w.extractLsb' 7 5)) (regOf (w.extractLsb' 15 5)) (w.extractLsb' 20 12)) := by
  simp [decode32, hop, hf3]

theorem decode32_of_sw (hop : w.extractLsb' 0 7 = 0b0100011#7) (hf3 : w.extractLsb' 12 3 = 0b010#3) :
    decode32 x w = .ok (.sw (regOf (w.extractLsb' 20 5)) (regOf (w.extractLsb' 15 5)) (immS w)) := by
  simp [decode32, hop, hf3]

theorem decode32_of_bne (hop : w.extractLsb' 0 7 = 0b1100011#7) (hf3 : w.extractLsb' 12 3 = 0b001#3) :
    decode32 x w = .ok (.bne (regOf (w.extractLsb' 15 5)) (regOf (w.extractLsb' 20 5)) (immB w)) := by
  simp [decode32, hop, hf3]

theorem decode32_of_jalr (hop : w.extractLsb' 0 7 = 0b1100111#7) (hf3 : w.extractLsb' 12 3 = 0b000#3) :
    decode32 x w = .ok (.jalr (regOf (w.extractLsb' 7 5)) (regOf (w.extractLsb' 15 5)) (w.extractLsb' 20 12)) := by
  simp [decode32, hop, hf3]

theorem decodeOpImm_of_addi (hf3 : w.extractLsb' 12 3 = 0b000#3) :
    decodeOpImm x w = .ok (.addi (regOf (w.extractLsb' 7 5)) (regOf (w.extractLsb' 15 5)) (w.extractLsb' 20 12)) :=
  if_pos hf3

/-- The rows of the three shifts (R63 to R65): what each spells, and its funct3 and its six bits above the amount. -/
def shiftRows : List ((Reg → Reg → Nat → Instr) × BitVec 3 × BitVec 6) :=
  [(.slli, 0b001#3, 0b000000#6), (.srli, 0b101#3, 0b000000#6), (.srai, 0b101#3, 0b010000#6)]

/-- A shift decodes when its amount is below XLEN, and is rejected otherwise. -/
theorem decodeOpImm_of_shift {f : Reg → Reg → Nat → Instr}
    (hf : (f, w.extractLsb' 12 3, w.extractLsb' 26 6) ∈ shiftRows) :
    decodeOpImm x w =
      if (w.extractLsb' 20 6).toNat < x.bits then
        .ok (f (regOf (w.extractLsb' 7 5)) (regOf (w.extractLsb' 15 5)) (w.extractLsb' 20 6).toNat)
      else .error .shamtPastXlen := by
  simp only [shiftRows, List.mem_cons, Prod.mk.injEq, List.not_mem_nil, or_false] at hf
  obtain ⟨rfl, hf3, hf6⟩ | ⟨rfl, hf3, hf6⟩ | ⟨rfl, hf3, hf6⟩ := hf <;> simp [decodeOpImm, hf3, hf6]

end

section
variable {cfg : Config} {p : BitVec 16}

theorem decode16_of_cSrai (hC : cfg.hasC = true) (hop : p.extractLsb' 0 2 = 0b01#2)
    (hf3 : p.extractLsb' 13 3 = 0b100#3) (hf2 : p.extractLsb' 10 2 = 0b01#2) :
    decode16 cfg p =
      if (cShamt p).toNat = 0 then .error .zeroShamtHint
      else if (cShamt p).toNat < cfg.xlen.bits then .ok (.cSrai (cregOf (p.extractLsb' 7 3)) (cShamt p).toNat)
      else .error .shamtPastXlen := by
  simp [decode16, hC, hop, hf3, hf2]

theorem decode16_of_cJr (hC : cfg.hasC = true) (hop : p.extractLsb' 0 2 = 0b10#2)
    (hf4 : p.extractLsb' 12 4 = 0b1000#4) (hrs2 : p.extractLsb' 2 5 = 0#5) :
    decode16 cfg p =
      if p.extractLsb' 7 5 = 0#5 then .error .zeroJumpRegister else .ok (.cJr (regOf (p.extractLsb' 7 5))) := by
  simp [decode16, hC, hop, hf4, hrs2]

/-- The shift amount of `c.srai` as a number (R72). -/
theorem toNat_cShamt (p : BitVec 16) :
    (cShamt p).toNat = (p.extractLsb' 12 1).toNat * 32 + (p.extractLsb' 2 5).toNat := by
  have hlow := toNat_place (k := 6) (p.extractLsb' 2 5) (lo := 0) (by omega)
  have hsum := toNat_or_place (v := p.extractLsb' 12 1) (lo := 5) hlow (by omega) (by omega)
  rw [cShamt, hsum]
  omega

end

/-- The S-type immediate by its two fields (R49, R68). -/
theorem toNat_immS_slices (w : BitVec 32) :
    (immS w).toNat = (w.extractLsb' 25 7).toNat * 32 + (w.extractLsb' 7 5).toNat := by
  rw [toNat_immS, toNat_slice, toNat_slice]
  omega

/-- The B-type immediate by its four fields (R49, R69). -/
theorem toNat_immB_slices (w : BitVec 32) :
    (immB w).toNat = (w.extractLsb' 31 1).toNat * 4096 + (w.extractLsb' 7 1).toNat * 2048 +
      (w.extractLsb' 25 6).toNat * 32 + (w.extractLsb' 8 4).toNat * 2 := by
  rw [toNat_immB]
  simp only [toNat_slice]
  omega

end Sys2Proof

/-! ### The effect of the integer instructions (R62 to R66, R72) -/

namespace Sys2Proof.Machine

section
variable {cfg : Config} (h : Hart cfg.xlen.bits) (rd rs1 rs2 : Reg)

theorem exec_addi (imm : BitVec 12) : exec (.addi rd rs1 imm) ⟨cfg, h⟩ =
    .next ⟨cfg, (h.writeReg rd (h.readReg rs1 + sext _ imm)).advance 4⟩ := rfl

theorem exec_slli (shamt : Nat) : exec (.slli rd rs1 shamt) ⟨cfg, h⟩ =
    .next ⟨cfg, (h.writeReg rd (h.readReg rs1 <<< shamt)).advance 4⟩ := rfl

theorem exec_srli (shamt : Nat) : exec (.srli rd rs1 shamt) ⟨cfg, h⟩ =
    .next ⟨cfg, (h.writeReg rd (h.readReg rs1 >>> shamt)).advance 4⟩ := rfl

theorem exec_srai (shamt : Nat) : exec (.srai rd rs1 shamt) ⟨cfg, h⟩ =
    .next ⟨cfg, (h.writeReg rd ((h.readReg rs1).sshiftRight shamt)).advance 4⟩ := rfl

theorem exec_or : exec (.or rd rs1 rs2) ⟨cfg, h⟩ =
    .next ⟨cfg, (h.writeReg rd (h.readReg rs1 ||| h.readReg rs2)).advance 4⟩ := rfl

theorem exec_cSrai (c : CReg) (shamt : Nat) : exec (.cSrai c shamt) ⟨cfg, h⟩ =
    .next ⟨cfg, (h.writeReg c.toReg ((h.readReg c.toReg).sshiftRight shamt)).advance 2⟩ := rfl

end

section
variable {w : Nat}

/-- Addition of a signed immediate is modulo 2^XLEN (R62). -/
theorem toNat_add_sext (a : BitVec w) {n : Nat} (imm : BitVec n) :
    ((a + sext w imm).toNat : Int) = (a.toNat + imm.toInt) % 2 ^ w := by
  have hpos : (0 : Int) < 2 ^ w := by positivity
  rw [sext, BitVec.signExtend, BitVec.toNat_add, BitVec.toNat_ofInt]
  push_cast
  rw [Int.toNat_of_nonneg (Int.emod_nonneg _ hpos.ne'), Int.add_emod_emod]

/-- Bits shifted in from the top are copies of bit XLEN-1 (R65, R72). -/
theorem getLsbD_sshiftRight_eq_ite (v : BitVec w) (s : Nat) {i : Nat} (hi : i < w) :
    (v.sshiftRight s).getLsbD i = if i + s < w then v.getLsbD (i + s) else v.getLsbD (w - 1) := by
  rw [BitVec.getLsbD_sshiftRight, BitVec.msb_eq_getLsbD_last, Nat.add_comm s]
  simp only [hi.not_ge, decide_false, Bool.not_false, Bool.true_and]

end

/-- Settles O21: the word's fixed bits select `addi`, and the sum is taken modulo 2^XLEN. -/
theorem addiAddsModuloXlen : Obligations.AddiAddsModuloXlen := by
  refine ⟨fun x w hw => ?words, fun cfg h rd rs1 imm => ?effect, by decide, by decide⟩
  case words =>
    rw [decode32_of_opImm (slice_of_masked hw (by decide)), decodeOpImm_of_addi (slice_of_masked hw (by decide))]
  case effect => exact ⟨_, _, exec_addi h .., registerOnly_writeReg_advance h .., toNat_add_sext ..⟩

/-- A word of one of the three shift rows spells that shift, if its amount is below XLEN (R63 to R65). -/
theorem decode32_of_shift_row {x : Xlen} {f : Reg → Reg → Nat → Instr} {w pat : BitVec 32}
    (hf : (f, pat) ∈ [(Instr.slli, 0x00001013#32), (Instr.srli, 0x00005013#32), (Instr.srai, 0x40005013#32)])
    (hw : w &&& 0xFC00707F#32 = pat) :
    decode32 x w =
      if (w.extractLsb' 20 6).toNat < x.bits then
        .ok (f (regOf (w.extractLsb' 7 5)) (regOf (w.extractLsb' 15 5)) (w.extractLsb' 20 6).toNat)
      else .error .shamtPastXlen := by
  have hop : w.extractLsb' 0 7 = pat.extractLsb' 0 7 := slice_of_masked hw (by decide)
  have hf3 : w.extractLsb' 12 3 = pat.extractLsb' 12 3 := slice_of_masked hw (by decide)
  have hf6 : w.extractLsb' 26 6 = pat.extractLsb' 26 6 := slice_of_masked hw (by decide)
  have hrow : pat.extractLsb' 0 7 = 0b0010011#7 ∧ (f, pat.extractLsb' 12 3, pat.extractLsb' 26 6) ∈ shiftRows := by
    simp only [List.mem_cons, Prod.mk.injEq, List.not_mem_nil, or_false] at hf
    obtain ⟨rfl, rfl⟩ | ⟨rfl, rfl⟩ | ⟨rfl, rfl⟩ := hf <;> simp [shiftRows]
  obtain ⟨hpat, hshift⟩ := hrow
  rw [← hf3, ← hf6] at hshift
  rw [decode32_of_opImm (hop.trans hpat), decodeOpImm_of_shift hshift]

/-- Bit 25 of a word is bit 5 of its shift amount. -/
theorem le_toNat_shamt {w : BitVec 32} (h : w.getLsbD 25 = true) : 32 ≤ (w.extractLsb' 20 6).toNat := by
  have htop : (w.extractLsb' 20 6).getLsbD 5 = w.getLsbD 25 := by simp
  exact Nat.ge_two_pow_of_testBit (htop.trans h)

/-- Settles O22: a row's word is decided by its amount, and each shift is given by the library's bit of a shift. -/
theorem shiftImmediatesMoveBits : Obligations.ShiftImmediatesMoveBits := by
  refine ⟨fun f pat hf w hw => ⟨fun x hx => ?word, fun cfg h hx hbit hs => ?stop⟩,
    fun cfg h rd rs1 shamt _ => ⟨?slli, ?srli, ?srai⟩, by decide, by decide, by decide⟩
  case word => rw [decode32_of_shift_row hf hw, if_pos hx]
  case stop =>
    have hpast : ¬ (w.extractLsb' 20 6).toNat < cfg.xlen.bits := by
      rw [hx]; exact (le_toNat_shamt hbit).not_gt
    exact step_of_standing_rejected hs ((decode32_of_shift_row hf hw).trans (if_neg hpast))
  case slli =>
    refine ⟨_, _, exec_slli h .., registerOnly_writeReg_advance h .., fun i hi => ?_⟩
    simp only [BitVec.getLsbD_shiftLeft, hi, ← decide_not, not_lt, decide_true, Bool.true_and]
  case srli =>
    refine ⟨_, _, exec_srli h .., registerOnly_writeReg_advance h .., fun i _ => ?_⟩
    rw [BitVec.getLsbD_ushiftRight, Nat.add_comm]
    by_cases hin : i + shamt < cfg.xlen.bits
    · simp [hin]
    · simp [hin, BitVec.getLsbD_of_ge _ _ (not_lt.1 hin)]
  case srai =>
    exact ⟨_, _, exec_srai h .., registerOnly_writeReg_advance h .., fun i hi => getLsbD_sshiftRight_eq_ite _ _ hi⟩

/-- Settles O23: the word's fixed bits select `or`, and a bit of the disjunction is the disjunction of the bits. -/
theorem orJoinsBits : Obligations.OrJoinsBits := by
  refine ⟨fun x w hw => ?words, fun cfg h rd rs1 rs2 => ?effect, by decide⟩
  case words =>
    exact decode32_of_or (slice_of_masked hw (by decide)) (slice_of_masked hw (by decide))
      (slice_of_masked hw (by decide))
  case effect =>
    exact ⟨_, _, exec_or h .., registerOnly_writeReg_advance h .., fun i => BitVec.getLsbD_or⟩

/-- Settles O29: amounts 0 and past XLEN are the two rejected ones, and the shift is that of `srai`. -/
theorem cSraiShiftsInPlace : Obligations.CSraiShiftsInPlace := by
  refine ⟨fun cfg p hC hp => ?words, fun cfg h rd shamt _ => ?effect, by decide, by decide, by decide, by decide⟩
  case words =>
    have hdec := decode16_of_cSrai hC (slice_of_masked hp (by decide)) (slice_of_masked hp (by decide))
      (slice_of_masked hp (by decide))
    dsimp only
    rw [← toNat_cShamt]
    refine ⟨fun hpos hlt => ?legal, fun h hbad hs => ?stop⟩
    case legal => rw [hdec, if_neg hpos, if_pos hlt]
    case stop =>
      obtain hzero | hpast := hbad
      · exact step_of_standing_rejected hs (hdec.trans (if_pos hzero))
      · have hpos : (cShamt p).toNat ≠ 0 := (cfg.xlen.bits_pos.trans_le hpast).ne'
        exact step_of_standing_rejected hs (hdec.trans ((if_neg hpos).trans (if_neg hpast.not_gt)))
  case effect =>
    exact ⟨_, _, exec_cSrai h .., registerOnly_writeReg_advance h .., fun i hi => getLsbD_sshiftRight_eq_ite _ _ hi⟩

end Sys2Proof.Machine

/-! ### lw and sw: their words and the bytes they move (R67, R68) -/

namespace Sys2Proof.Machine

theorem exec_lw_of_not_inside {cfg : Config} {h : Hart cfg.xlen.bits} {rd rs1 : Reg} {imm : BitVec 12}
    (ha : (effectiveAddress h rs1 imm).toNat % 4 = 0)
    (hout : ¬ cfg.Inside none (effectiveAddress h rs1 imm).toNat 4) :
    exec (.lw rd rs1 imm) ⟨cfg, h⟩ =
      .fault (.loadAccessFault h.pc.toNat (effectiveAddress h rs1 imm).toNat) := by
  simp [exec, execLw, State.onHart, Hart.raise, ha, mt (mayLoad_iff _ _ _).1 hout]

/-- A loaded word bit by bit: four bytes, and above them copies of the top bit of the last one (R67). -/
theorem getLsbD_sext_read {w v : Nat} (m : Memory) (addr : BitVec w) {i : Nat} (hi : i < v) :
    (sext v (m.read addr 32 4)).getLsbD i =
      if i < 32 then (m.byte (addr + BitVec.ofNat w (i / 8)).toNat).getLsbD (i % 8)
      else (m.byte (addr + 3#w).toNat).getLsbD 7 := by
  rw [sext, BitVec.getLsbD_signExtend, BitVec.msb_eq_getLsbD_last, Memory.getLsbD_read, Memory.getLsbD_read]
  by_cases hlow : i < 32 <;> simp [hi, hlow]

/-- Settles O24: the three outcomes of a load in the order of its checks, and the loaded word bit by bit. -/
theorem lwLoadsFourBytes : Obligations.LwLoadsFourBytes := by
  refine ⟨fun x w hw => ?words, fun cfg h rd rs1 imm => ⟨?misaligned, ?outside, fun ha hin => ?loaded⟩, by decide⟩
  case words => exact decode32_of_lw (slice_of_masked hw (by decide)) (slice_of_masked hw (by decide))
  case misaligned => exact exec_lw_of_misaligned
  case outside => exact exec_lw_of_not_inside
  case loaded =>
    exact ⟨_, _, exec_lw_of_inside ha hin, registerOnly_writeReg_advance h .., fun i hi => getLsbD_sext_read _ _ hi⟩

/-- Settles O25: the three outcomes of a store in the order of its checks, and memory read after it byte by byte. -/
theorem swStoresFourBytes : Obligations.SwStoresFourBytes := by
  refine ⟨fun x w hw => ?words, fun cfg h rs2 rs1 imm hm => ⟨?misaligned, ?outside, fun ha hin => ?stored⟩,
    by decide, by decide⟩
  case words =>
    exact ⟨_, decode32_of_sw (slice_of_masked hw (by decide)) (slice_of_masked hw (by decide)), toNat_immS_slices w⟩
  case misaligned => exact exec_sw_of_misaligned
  case outside => exact exec_sw_of_not_inside
  case stored =>
    refine ⟨_, exec_sw_of_inside ha hin, fun r => by simp, by simp, by simp, fun i hi => ?bytes, fun a hne => ?frame⟩
    case bytes => exact Memory.byte_write _ _ 4 i hm hi (four_le_two_pow_bits cfg.xlen)
    case frame => exact Memory.byte_write_ne _ _ 4 a hm hne

end Sys2Proof.Machine

/-! ### Control transfers: bne, jalr, c.jr (R69 to R73) -/

namespace Sys2Proof.Machine

section
variable {w : Nat}

/-- The frame of a branch or jump without a link. -/
theorem pcOnly_setPc (h : Hart w) (t : BitVec w) : PcOnly h (h.setPc t) t :=
  ⟨fun _ => rfl, rfl, fun _ => rfl, rfl⟩

/-- The frame of a jump with a link: that of an instruction whose length is the distance to the target. -/
theorem registerOnly_writeReg_setPc (h : Hart w) (rd : Reg) (v t : BitVec w) :
    RegisterOnly h ((h.writeReg rd v).setPc t) rd v t := by
  have ht : h.pc + BitVec.ofNat w (t - h.pc).toNat = t := by rw [BitVec.ofNat_toNat, BitVec.setWidth_eq, add_sub_cancel]
  have hframe := registerOnly_writeReg_advance h rd v (t - h.pc).toNat
  rwa [Hart.advance, Hart.writeReg_pc, ht] at hframe

theorem Hart.jumpTo_of_aligned {cfg : Config} (h : Hart w) {t : BitVec w} (ht : t.toNat % cfg.ialignBytes = 0) :
    h.jumpTo cfg t = .next (h.setPc t) := by
  obtain ⟨-, hj⟩ | ⟨hbad, -⟩ := h.jumpTo_cases cfg t
  · exact hj
  · exact absurd ht hbad

theorem Hart.jumpTo_of_misaligned {cfg : Config} (h : Hart w) {t : BitVec w} (ht : t.toNat % cfg.ialignBytes ≠ 0) :
    h.jumpTo cfg t = .fault (.instructionAddressMisaligned h.pc.toNat t.toNat) := by
  obtain ⟨hok, -⟩ | ⟨-, hj⟩ := h.jumpTo_cases cfg t
  · exact absurd hok ht
  · exact hj

theorem getLsbD_clearBit0 (v : BitVec w) (i : Nat) : (clearBit0 v).getLsbD i = (decide (i ≠ 0) && v.getLsbD i) := by
  by_cases hi : i < w
  · rw [clearBit0, BitVec.getLsbD_and, BitVec.getLsbD_not, BitVec.getLsbD_one]
    by_cases h0 : i = 0 <;> simp [hi, h0, show 0 < w by omega]
  · simp only [BitVec.getLsbD_of_ge _ _ (not_lt.1 hi), Bool.and_false]

/-- Clearing bit 0 rounds a number down to an even one (R70, R73). -/
theorem toNat_clearBit0 (v : BitVec w) : (clearBit0 v).toNat = v.toNat / 2 * 2 := by
  apply Nat.eq_of_testBit_eq
  intro i
  rw [BitVec.testBit_toNat, getLsbD_clearBit0, ← BitVec.testBit_toNat]
  cases i with
  | zero => simp
  | succ i => simp [Nat.testBit_add_one]

/-- A target given as a number is the one that the jump computes. -/
theorem eq_clearBit0 {t v : BitVec w} (ht : t.toNat = v.toNat / 2 * 2) : t = clearBit0 v :=
  BitVec.eq_of_toNat_eq (ht.trans (toNat_clearBit0 v).symm)

end

section
variable {cfg : Config} {h : Hart cfg.xlen.bits} {rs1 rs2 : Reg}

theorem exec_bne_of_ne (hne : h.readReg rs1 ≠ h.readReg rs2) (off : BitVec 13) :
    exec (.bne rs1 rs2 off) ⟨cfg, h⟩ = State.onHart ⟨cfg, h⟩ (·.jumpTo cfg (branchTarget h off)) := by
  simp [exec, execBne, State.onHart, notEqual, hne]

theorem exec_bne_of_eq (heq : h.readReg rs1 = h.readReg rs2) (off : BitVec 13) :
    exec (.bne rs1 rs2 off) ⟨cfg, h⟩ = .next ⟨cfg, h.advance 4⟩ := by
  simp [exec, execBne, State.onHart, notEqual, heq]

end

/-- Settles O26: the branch is taken exactly when the registers differ, and only then is its target checked. -/
theorem bneBranchesOnInequality : Obligations.BneBranchesOnInequality := by
  refine ⟨fun x w hw => ?words, fun cfg h rs1 rs2 off => ⟨fun hne ht => ?taken, fun hne ht => ?misaligned,
    fun heq => ?notTaken⟩, by decide⟩
  case words =>
    exact ⟨_, decode32_of_bne (slice_of_masked hw (by decide)) (slice_of_masked hw (by decide)), toNat_immB_slices w⟩
  case taken =>
    exact ⟨_, (exec_bne_of_ne hne off).trans (State.onHart_of_next (h.jumpTo_of_aligned ht)), pcOnly_setPc ..⟩
  case misaligned => exact (exec_bne_of_ne hne off).trans (State.onHart_of_fault (h.jumpTo_of_misaligned ht))
  case notTaken => exact ⟨_, exec_bne_of_eq heq off, pcOnly_setPc ..⟩

section
variable {cfg : Config} (h : Hart cfg.xlen.bits) (rd rs1 : Reg) (imm : BitVec 12)

theorem exec_jalr : exec (.jalr rd rs1 imm) ⟨cfg, h⟩ =
    State.onHart ⟨cfg, h⟩ fun h => (h.writeReg rd (linkAddress h)).jumpTo cfg (jalrTarget h rs1 imm) := rfl

theorem exec_cJr : exec (.cJr rs1) ⟨cfg, h⟩ =
    State.onHart ⟨cfg, h⟩ fun h => h.jumpTo cfg (clearBit0 (h.readReg rs1)) := rfl

theorem exec_jalr_of_aligned (ht : (jalrTarget h rs1 imm).toNat % cfg.ialignBytes = 0) :
    exec (.jalr rd rs1 imm) ⟨cfg, h⟩ =
      .next ⟨cfg, (h.writeReg rd (linkAddress h)).setPc (jalrTarget h rs1 imm)⟩ :=
  (exec_jalr h ..).trans (State.onHart_of_next (Hart.jumpTo_of_aligned _ ht))

theorem exec_jalr_of_misaligned (ht : (jalrTarget h rs1 imm).toNat % cfg.ialignBytes ≠ 0) :
    exec (.jalr rd rs1 imm) ⟨cfg, h⟩ =
      .fault (.instructionAddressMisaligned h.pc.toNat (jalrTarget h rs1 imm).toNat) := by
  have hj := (h.writeReg rd (linkAddress h)).jumpTo_of_misaligned ht
  rw [Hart.writeReg_pc] at hj
  exact (exec_jalr h ..).trans (State.onHart_of_fault hj)

theorem exec_cJr_of_aligned (ht : (clearBit0 (h.readReg rs1)).toNat % cfg.ialignBytes = 0) :
    exec (.cJr rs1) ⟨cfg, h⟩ = .next ⟨cfg, h.setPc (clearBit0 (h.readReg rs1))⟩ :=
  (exec_cJr h rs1).trans (State.onHart_of_next (h.jumpTo_of_aligned ht))

end

/-- Settles O27: target and link are those of the state before, whatever `rd` is. -/
theorem jalrLinksAndJumps : Obligations.JalrLinksAndJumps := by
  refine ⟨fun x w hw => ?words, fun cfg h rd rs1 imm t ht => ?effect⟩
  case words => exact decode32_of_jalr (slice_of_masked hw (by decide)) (slice_of_masked hw (by decide))
  case effect =>
    obtain rfl : t = jalrTarget h rs1 imm := eq_clearBit0 ht
    exact ⟨fun ha => ⟨_, exec_jalr_of_aligned h rd rs1 imm ha, registerOnly_writeReg_setPc ..⟩,
      exec_jalr_of_misaligned h rd rs1 imm⟩

/-- `c.jr rs1` expands to `jalr x0, 0(rs1)` (R73): no link, and nothing added to the register. -/
theorem exec_cJr_eq_exec_jalr (rs1 : Reg) (s : State) : exec (.cJr rs1) s = exec (.jalr 0 rs1 0) s := by
  have hzero : sext s.cfg.xlen.bits (0 : BitVec 12) = 0 := by simp [sext, BitVec.signExtend]
  simp only [exec, execCJr, execJalr, jalrTarget, hzero, add_zero, Hart.writeReg_zero]

/-- Both spellings of `ret` have the effect of `c.jr ra` (R71). -/
theorem exec_ret (c : Bool) (s : State) : exec (ret c) s = exec (.cJr 1) s := by
  cases c
  · exact (exec_cJr_eq_exec_jalr 1 s).symm
  · rfl

/-- Settles O28: either spelling is `c.jr ra`, whose target is x[1] with bit 0 cleared. -/
theorem retReturnsThroughRa : Obligations.RetReturnsThroughRa := by
  refine ⟨fun cfg h c t ht ha => ?_, by decide, by decide⟩
  obtain rfl := eq_clearBit0 ht
  exact ⟨_, (exec_ret c _).trans (exec_cJr_of_aligned h 1 ha), pcOnly_setPc ..⟩

/-- With HAS_C every even address may hold an instruction (R22). -/
theorem aligned_of_hasC {cfg : Config} (hC : cfg.hasC = true) (n : Nat) : n / 2 * 2 % cfg.ialignBytes = 0 := by
  simp [Config.ialignBytes, hC]

/-- Settles O30: rs1 = 0 is the one rejected register, and a target with bit 0 cleared is aligned to 16 bits. -/
theorem cJrJumpsToRegister : Obligations.CJrJumpsToRegister := by
  refine ⟨fun cfg p hC hp => ?words, fun cfg h rs1 t hC ht => ?jump, exec_cJr_eq_exec_jalr, by decide⟩
  case words =>
    have hdec := decode16_of_cJr hC (slice_of_masked hp (by decide)) (slice_of_masked hp (by decide))
      (slice_of_masked hp (by decide))
    exact ⟨fun hne => hdec.trans (if_neg hne),
      fun h h0 hs => step_of_standing_rejected hs (hdec.trans (if_pos h0))⟩
  case jump =>
    have ha : t.toNat % cfg.ialignBytes = 0 := ht ▸ aligned_of_hasC hC _
    obtain rfl := eq_clearBit0 ht
    exact ⟨ha, _, exec_cJr_of_aligned h rs1 ha, pcOnly_setPc ..⟩

end Sys2Proof.Machine

/-! ### Words and fields: a word is the OR of its slices (R4, R45, R49) -/

namespace Sys2Proof

section
variable {k n : Nat}

/-- A slice put back in its place keeps its bits and clears the others. -/
theorem getLsbD_place_slice (w : BitVec k) {lo m : Nat} (h : lo + m ≤ k) (i : Nat) :
    (place k (w.extractLsb' lo m) lo).getLsbD i = (decide (lo ≤ i) && decide (i < lo + m) && w.getLsbD i) := by
  rw [Machine.getLsbD_place, BitVec.getLsbD_extractLsb']
  by_cases hlo : lo ≤ i
  · by_cases hhi : i < lo + m
    · simp [hlo, hhi, show i < k by omega, show i - lo < m by omega]
    · simp [hhi, show ¬ i - lo < m by omega]
  · simp [hlo]

/-- A field read from its own place. -/
@[simp] theorem slice_place_self (v : BitVec n) {lo : Nat} (h : lo + n ≤ k) : (place k v lo).extractLsb' lo n = v := by
  apply BitVec.eq_of_getLsbD_eq
  intro i hi
  rw [BitVec.getLsbD_extractLsb', Machine.getLsbD_place]
  simp [hi, show lo + i < k by omega]

/-- A field has no bit in a slice that it does not meet. -/
@[simp] theorem slice_place_of_disjoint (v : BitVec n) {lo lo' m : Nat} (h : lo' + n ≤ lo ∨ lo + m ≤ lo') :
    (place k v lo').extractLsb' lo m = 0#m := by
  apply BitVec.eq_of_getLsbD_eq
  intro i hi
  rw [BitVec.getLsbD_extractLsb', Machine.getLsbD_place, BitVec.getLsbD_zero]
  obtain hbelow | habove := h
  · simp [BitVec.getLsbD_of_ge v (lo + i - lo') (by omega)]
  · simp [show ¬ lo' ≤ lo + i by omega]

end

/-! ### The slices of an operand that a word holds in pieces -/

section
variable (w : BitVec 32) (p : BitVec 16)

theorem bfStart_slices :
    (bfStart w).extractLsb' 0 4 = w.extractLsb' 28 4 ∧ (bfStart w).extractLsb' 4 2 = w.extractLsb' 13 2 := by
  constructor <;> simp [bfStart, BitVec.extractLsb'_or]

theorem bfLenField_slices :
    (bfLenField w).extractLsb' 0 4 = w.extractLsb' 24 4 ∧ (bfLenField w).extractLsb' 4 1 = w.extractLsb' 12 1 := by
  constructor <;> simp [bfLenField, BitVec.extractLsb'_or]

theorem immS_slices :
    (immS w).extractLsb' 0 5 = w.extractLsb' 7 5 ∧ (immS w).extractLsb' 5 7 = w.extractLsb' 25 7 := by
  constructor <;> simp [immS, BitVec.extractLsb'_or]

theorem immB_slices :
    (immB w).extractLsb' 1 4 = w.extractLsb' 8 4 ∧ (immB w).extractLsb' 5 6 = w.extractLsb' 25 6 ∧
    (immB w).extractLsb' 11 1 = w.extractLsb' 7 1 ∧ (immB w).extractLsb' 12 1 = w.extractLsb' 31 1 := by
  refine ⟨?_, ?_, ?_, ?_⟩ <;> simp [immB, BitVec.extractLsb'_or]

theorem cShamt_slices :
    (cShamt p).extractLsb' 0 5 = p.extractLsb' 2 5 ∧ (cShamt p).extractLsb' 5 1 = p.extractLsb' 12 1 := by
  constructor <;> simp [cShamt, BitVec.extractLsb'_or]

/-- A branch offset read from a word is even (R61). -/
theorem getLsbD_immB_zero : (immB w).getLsbD 0 = false := by
  simp [immB, place]

end

/-! ### A word is the encoding of its own fields
Bit by bit: a clear bit is clear in every field, and a set bit lies in one of them, since the fields cover the word. -/

section
variable {w : BitVec 32} {op : BitVec 7} {f3 : BitVec 3}

theorem encodeI_of_slices (hop : w.extractLsb' 0 7 = op) (hf3 : w.extractLsb' 12 3 = f3) :
    encodeI op f3 (regOf (w.extractLsb' 7 5)) (regOf (w.extractLsb' 15 5)) (w.extractLsb' 20 12) = w := by
  subst hop hf3
  apply BitVec.eq_of_getLsbD_eq
  intro i hi
  simp (disch := decide) only [encodeI, regBits_regOf, BitVec.getLsbD_or, getLsbD_place_slice]
  cases w.getLsbD i
  · simp
  · simp; omega

theorem encodeShift_of_slices {f6 : BitVec 6} (hop : w.extractLsb' 0 7 = 0b0010011#7)
    (hf3 : w.extractLsb' 12 3 = f3) (hf6 : w.extractLsb' 26 6 = f6) :
    encodeShift f3 f6 (regOf (w.extractLsb' 7 5)) (regOf (w.extractLsb' 15 5)) (w.extractLsb' 20 6).toNat = w := by
  subst hf3 hf6
  apply BitVec.eq_of_getLsbD_eq
  intro i hi
  simp (disch := decide) only [encodeShift, ← hop, regBits_regOf, BitVec.ofNat_toNat, BitVec.setWidth_eq,
    BitVec.getLsbD_or, getLsbD_place_slice]
  cases w.getLsbD i
  · simp
  · simp; omega

theorem encodeR_of_slices {f7 : BitVec 7} (hop : w.extractLsb' 0 7 = op) (hf3 : w.extractLsb' 12 3 = f3)
    (hf7 : w.extractLsb' 25 7 = f7) :
    encodeR op f3 f7 (regOf (w.extractLsb' 7 5)) (regOf (w.extractLsb' 15 5)) (regOf (w.extractLsb' 20 5)) = w := by
  subst hop hf3 hf7
  apply BitVec.eq_of_getLsbD_eq
  intro i hi
  simp (disch := decide) only [encodeR, regBits_regOf, BitVec.getLsbD_or, getLsbD_place_slice]
  cases w.getLsbD i
  · simp
  · simp; omega

theorem encodeS_of_slices (hop : w.extractLsb' 0 7 = op) (hf3 : w.extractLsb' 12 3 = f3) :
    encodeS op f3 (regOf (w.extractLsb' 20 5)) (regOf (w.extractLsb' 15 5)) (immS w) = w := by
  subst hop hf3
  apply BitVec.eq_of_getLsbD_eq
  intro i hi
  simp (disch := decide) only [encodeS, layS, immS_slices, regBits_regOf, BitVec.getLsbD_or, getLsbD_place_slice]
  cases w.getLsbD i
  · simp
  · simp; omega

theorem encodeB_of_slices (hop : w.extractLsb' 0 7 = op) (hf3 : w.extractLsb' 12 3 = f3) :
    encodeB op f3 (regOf (w.extractLsb' 15 5)) (regOf (w.extractLsb' 20 5)) (immB w) = w := by
  subst hop hf3
  apply BitVec.eq_of_getLsbD_eq
  intro i hi
  simp (disch := decide) only [encodeB, layB, immB_slices, regBits_regOf, BitVec.getLsbD_or, getLsbD_place_slice]
  cases w.getLsbD i
  · simp
  · simp; omega

theorem encodeBf_of_slices {comp : BitVec 1} (hop : w.extractLsb' 0 7 = 0b1111011#7)
    (hcomp : w.extractLsb' 11 1 = comp) :
    encodeBf comp (cregOf (w.extractLsb' 7 3)) (cregOf (w.extractLsb' 15 3)) (src2Of (w.extractLsb' 10 1))
      (bfStart w).toNat (lenOf (bfLenField w)) (bfDest w).toNat = w := by
  obtain ⟨-, -, hlen⟩ := lenOf_bounds (bfLenField w)
  subst hcomp
  apply BitVec.eq_of_getLsbD_eq
  intro i hi
  simp (disch := decide) only [encodeBf, ← hop, hlen, cregBits_cregOf, src2Bits_src2Of, BitVec.ofNat_toNat,
    BitVec.setWidth_eq, bfStart_slices, bfLenField_slices, bfDest, BitVec.getLsbD_or, getLsbD_place_slice]
  cases w.getLsbD i
  · simp
  · simp; omega

end

section
variable {p : BitVec 16}

theorem encodeCSrai_of_slices (hop : p.extractLsb' 0 2 = 0b01#2) (hf3 : p.extractLsb' 13 3 = 0b100#3)
    (hf2 : p.extractLsb' 10 2 = 0b01#2) : encodeCSrai (cregOf (p.extractLsb' 7 3)) (cShamt p).toNat = p := by
  have hop' : place 16 0b01#2 0 = place 16 (p.extractLsb' 0 2) 0 := by rw [hop]
  have hf2' : place 16 0b01#2 10 = place 16 (p.extractLsb' 10 2) 10 := by rw [hf2]
  apply BitVec.eq_of_getLsbD_eq
  intro i hi
  simp (disch := decide) only [encodeCSrai, hop', ← hf3, hf2', cregBits_cregOf, BitVec.ofNat_toNat,
    BitVec.setWidth_eq, cShamt_slices, BitVec.getLsbD_or, getLsbD_place_slice]
  cases p.getLsbD i
  · simp
  · simp; omega

/-- The five bits that the encoding leaves zero are zero in the word. -/
theorem encodeCJr_of_slices (hop : p.extractLsb' 0 2 = 0b10#2) (hf4 : p.extractLsb' 12 4 = 0b1000#4)
    (hrs2 : p.extractLsb' 2 5 = 0#5) : encodeCJr (regOf (p.extractLsb' 7 5)) = p := by
  apply BitVec.eq_of_getLsbD_eq
  intro i hi
  have hzero : (place 16 (p.extractLsb' 2 5) 2).getLsbD i = false := by simp [hrs2, place]
  rw [getLsbD_place_slice p (by decide)] at hzero
  simp (disch := decide) only [encodeCJr, ← hop, ← hf4, regBits_regOf, BitVec.getLsbD_or, getLsbD_place_slice]
  cases hbit : p.getLsbD i
  · simp
  · simp [hbit] at hzero ⊢
    omega

end

/-! ### What an accepted word can be: one inversion lemma per decoder -/

section
variable {x : Xlen} {w : BitVec 32} {i : Instr}

theorem decode32_ok_cases (h : decode32 x w = .ok i) :
    (w.extractLsb' 0 7 = 0b1111011#7 ∧ decodeCustom3 x w = .ok i) ∨
    (w.extractLsb' 0 7 = 0b0010011#7 ∧ decodeOpImm x w = .ok i) ∨
    ((w.extractLsb' 0 7 = 0b0110011#7 ∧ w.extractLsb' 12 3 = 0b110#3 ∧ w.extractLsb' 25 7 = 0b0000000#7) ∧
      i = .or (regOf (w.extractLsb' 7 5)) (regOf (w.extractLsb' 15 5)) (regOf (w.extractLsb' 20 5))) ∨
    ((w.extractLsb' 0 7 = 0b0000011#7 ∧ w.extractLsb' 12 3 = 0b010#3) ∧
      i = .lw (regOf (w.extractLsb' 7 5)) (regOf (w.extractLsb' 15 5)) (w.extractLsb' 20 12)) ∨
    ((w.extractLsb' 0 7 = 0b0100011#7 ∧ w.extractLsb' 12 3 = 0b010#3) ∧
      i = .sw (regOf (w.extractLsb' 20 5)) (regOf (w.extractLsb' 15 5)) (immS w)) ∨
    ((w.extractLsb' 0 7 = 0b1100011#7 ∧ w.extractLsb' 12 3 = 0b001#3) ∧
      i = .bne (regOf (w.extractLsb' 15 5)) (regOf (w.extractLsb' 20 5)) (immB w)) ∨
    ((w.extractLsb' 0 7 = 0b1100111#7 ∧ w.extractLsb' 12 3 = 0b000#3) ∧
      i = .jalr (regOf (w.extractLsb' 7 5)) (regOf (w.extractLsb' 15 5)) (w.extractLsb' 20 12)) := by
  unfold decode32 at h
  dsimp only at h
  split_ifs at h with hbf himm hor hlw hsw hbne hjalr
  · exact .inl ⟨hbf, h⟩
  · exact .inr (.inl ⟨himm, h⟩)
  all_goals cases h
  · exact .inr (.inr (.inl ⟨hor, rfl⟩))
  · exact .inr (.inr (.inr (.inl ⟨hlw, rfl⟩)))
  · exact .inr (.inr (.inr (.inr (.inl ⟨hsw, rfl⟩))))
  · exact .inr (.inr (.inr (.inr (.inr (.inl ⟨hbne, rfl⟩)))))
  · exact .inr (.inr (.inr (.inr (.inr (.inr ⟨hjalr, rfl⟩)))))

theorem decodeOpImm_ok_cases (h : decodeOpImm x w = .ok i) :
    (w.extractLsb' 12 3 = 0b000#3 ∧
      i = .addi (regOf (w.extractLsb' 7 5)) (regOf (w.extractLsb' 15 5)) (w.extractLsb' 20 12)) ∨
    ∃ f, (f, w.extractLsb' 12 3, w.extractLsb' 26 6) ∈ shiftRows ∧ (w.extractLsb' 20 6).toNat < x.bits ∧
      i = f (regOf (w.extractLsb' 7 5)) (regOf (w.extractLsb' 15 5)) (w.extractLsb' 20 6).toNat := by
  unfold decodeOpImm at h
  dsimp only at h
  split_ifs at h with haddi hslli hlt hsrli hlt hsrai hlt <;> cases h
  · exact .inl ⟨haddi, rfl⟩
  · exact .inr ⟨.slli, by simp [shiftRows, hslli], hlt, rfl⟩
  · exact .inr ⟨.srli, by simp [shiftRows, hsrli], hlt, rfl⟩
  · exact .inr ⟨.srai, by simp [shiftRows, hsrai], hlt, rfl⟩

theorem decode16_ok_cases {cfg : Config} {p : BitVec 16} (h : decode16 cfg p = .ok i) :
    cfg.hasC = true ∧
    (((p.extractLsb' 0 2 = 0b01#2 ∧ p.extractLsb' 13 3 = 0b100#3 ∧ p.extractLsb' 10 2 = 0b01#2) ∧
      (cShamt p).toNat ≠ 0 ∧ (cShamt p).toNat < cfg.xlen.bits ∧
      i = .cSrai (cregOf (p.extractLsb' 7 3)) (cShamt p).toNat) ∨
    ((p.extractLsb' 0 2 = 0b10#2 ∧ p.extractLsb' 12 4 = 0b1000#4 ∧ p.extractLsb' 2 5 = 0#5) ∧
      p.extractLsb' 7 5 ≠ 0#5 ∧ i = .cJr (regOf (p.extractLsb' 7 5)))) := by
  unfold decode16 at h
  dsimp only at h
  split_ifs at h with hC hsrai hzero hlt hjr hrs1 <;> cases h
  · exact ⟨by simpa using hC, .inl ⟨hsrai, hzero, hlt, rfl⟩⟩
  · exact ⟨by simpa using hC, .inr ⟨hjr, hrs1, rfl⟩⟩

end

/-! ### An accepted word is the encoding of a well-formed instruction -/

section
variable {cfg : Config} {w : BitVec 32} {i : Instr}

/-- Bit 11 is the only difference between the two instructions of the BF format (R35). -/
theorem wellFormed_encode_bfInstr (hop : w.extractLsb' 0 7 = 0b1111011#7) (hw : BfLegalWord cfg.xlen w) :
    (bfInstr w).wellFormed cfg = true ∧ encode (bfInstr w) = .full w := by
  unfold bfInstr
  split
  case isTrue hcomp => exact ⟨decide_eq_true hw, congrArg InstrWord.full (encodeBf_of_slices hop hcomp)⟩
  case isFalse hcomp =>
    have hcomp' : w.extractLsb' 11 1 = 1#1 := (BitVec.eq_zero_or_eq_one _).resolve_left hcomp
    exact ⟨decide_eq_true hw, congrArg InstrWord.full (encodeBf_of_slices hop hcomp')⟩

/-- The three shifts differ in their row alone. -/
theorem wellFormed_encode_shift {f : Reg → Reg → Nat → Instr} {f3 : BitVec 3} {f6 : BitVec 6}
    (hf : (f, f3, f6) ∈ shiftRows) (rd rs1 : Reg) (shamt : Nat) :
    (f rd rs1 shamt).wellFormed cfg = decide (shamt < cfg.xlen.bits) ∧
    encode (f rd rs1 shamt) = .full (encodeShift f3 f6 rd rs1 shamt) := by
  simp only [shiftRows, List.mem_cons, Prod.mk.injEq, List.not_mem_nil, or_false] at hf
  obtain ⟨rfl, rfl, rfl⟩ | ⟨rfl, rfl, rfl⟩ | ⟨rfl, rfl, rfl⟩ := hf <;> exact ⟨rfl, rfl⟩

theorem wellFormed_encode_of_decodeOpImm (hop : w.extractLsb' 0 7 = 0b0010011#7)
    (h : decodeOpImm cfg.xlen w = .ok i) : i.wellFormed cfg = true ∧ encode i = .full w := by
  obtain ⟨hf3, rfl⟩ | ⟨f, hf, hlt, rfl⟩ := decodeOpImm_ok_cases h
  · exact ⟨rfl, congrArg InstrWord.full (encodeI_of_slices hop hf3)⟩
  · obtain ⟨hwf, henc⟩ := wellFormed_encode_shift (cfg := cfg) hf (regOf (w.extractLsb' 7 5))
      (regOf (w.extractLsb' 15 5)) (w.extractLsb' 20 6).toNat
    rw [hwf, henc, encodeShift_of_slices hop rfl rfl]
    exact ⟨decide_eq_true hlt, rfl⟩

theorem wellFormed_encode_of_decode32 (h : decode32 cfg.xlen w = .ok i) :
    i.wellFormed cfg = true ∧ encode i = .full w := by
  obtain ⟨hop, hbf⟩ | ⟨hop, himm⟩ | ⟨⟨hop, hf3, hf7⟩, rfl⟩ | ⟨⟨hop, hf3⟩, rfl⟩ | ⟨⟨hop, hf3⟩, rfl⟩ | ⟨⟨hop, hf3⟩, rfl⟩ |
    ⟨⟨hop, hf3⟩, rfl⟩ := decode32_ok_cases h
  · obtain ⟨hw, rfl⟩ := decodeCustom3_ok_iff.1 hbf
    exact wellFormed_encode_bfInstr hop hw
  · exact wellFormed_encode_of_decodeOpImm hop himm
  · exact ⟨rfl, congrArg InstrWord.full (encodeR_of_slices hop hf3 hf7)⟩
  · exact ⟨rfl, congrArg InstrWord.full (encodeI_of_slices hop hf3)⟩
  · exact ⟨rfl, congrArg InstrWord.full (encodeS_of_slices hop hf3)⟩
  · exact ⟨by simp only [Instr.wellFormed, getLsbD_immB_zero, Bool.not_false],
      congrArg InstrWord.full (encodeB_of_slices hop hf3)⟩
  · exact ⟨rfl, congrArg InstrWord.full (encodeI_of_slices hop hf3)⟩

theorem wellFormed_encode_of_decode16 {p : BitVec 16} (h : decode16 cfg p = .ok i) :
    i.wellFormed cfg = true ∧ encode i = .half p := by
  obtain ⟨hC, ⟨⟨hop, hf3, hf2⟩, hpos, hlt, rfl⟩ | ⟨⟨hop, hf4, hrs2⟩, hrs1, rfl⟩⟩ := decode16_ok_cases h
  · exact ⟨by simp [Instr.wellFormed, hC, hpos, hlt], congrArg InstrWord.half (encodeCSrai_of_slices hop hf3 hf2)⟩
  · have hne : regOf (p.extractLsb' 7 5) ≠ 0 := fun h0 => hrs1 (by rw [← regBits_regOf (p.extractLsb' 7 5), h0]; rfl)
    exact ⟨by simp [Instr.wellFormed, hC, hne], congrArg InstrWord.half (encodeCJr_of_slices hop hf4 hrs2)⟩

/-- The decoder accepts only words that a well-formed instruction spells (R74). -/
theorem wellFormed_encode_of_decodeWord {iw : InstrWord} (h : decodeWord cfg iw = .ok i) :
    i.wellFormed cfg = true ∧ encode i = iw := by
  cases iw with
  | half p => exact wellFormed_encode_of_decode16 h
  | full w => exact wellFormed_encode_of_decode32 h

end

/-! ### The fixed bits of an encoding -/

/-- The seven opcodes of the admitted 32-bit instructions; the one of `or` stands with its funct3 only (R61 to R70). -/
theorem opcode_of_encode {i : Instr} {w : BitVec 32} (h : encode i = .full w) :
    w.extractLsb' 0 7 ∈
      [0b1111011#7, 0b0010011#7, 0b0000011#7, 0b0100011#7, 0b1100011#7, 0b1100111#7] ∨
    (w.extractLsb' 0 7 = 0b0110011#7 ∧ w.extractLsb' 12 3 = 0b110#3) := by
  cases i <;> cases h
  case or => exact .inr (by simp [encodeR, BitVec.extractLsb'_or])
  case bfxp | bfxpc => exact .inl (by simp [encodeBf, BitVec.extractLsb'_or])
  case slli | srli | srai => exact .inl (by simp [encodeShift, BitVec.extractLsb'_or])
  case addi | lw | jalr => exact .inl (by simp [encodeI, BitVec.extractLsb'_or])
  case sw => exact .inl (by simp [encodeS, layS, BitVec.extractLsb'_or])
  case bne => exact .inl (by simp [encodeB, layB, BitVec.extractLsb'_or])

end Sys2Proof

namespace Sys2Proof.Machine

/-- Settles O42: an accepted word is an encoding, so any other is rejected; the five words have no admitted opcode, or that of
`or` with another funct3. -/
theorem unadmittedWordRaisesIllegalInstruction : Obligations.UnadmittedWordRaisesIllegalInstruction := by
  refine ⟨fun cfg h iw hne hs => ?unadmitted, fun w hw cfg i _ henc => ?words⟩
  case unadmitted =>
    cases hd : decodeWord cfg iw with
    | ok i =>
      obtain ⟨hwf, henc⟩ := wellFormed_encode_of_decodeWord hd
      exact absurd henc (hne i hwf)
    | error r => exact step_of_standing_rejected hs hd
  case words =>
    have hop := opcode_of_encode henc
    simp only [List.mem_cons, List.not_mem_nil, or_false] at hw
    obtain rfl | rfl | rfl | rfl | rfl := hw <;> exact absurd hop (by decide)

end Sys2Proof.Machine

/-! ### The state after reset -/

namespace Sys2Proof

/-- RESET_PC is an address of the machine. -/
theorem Config.WellFormed.resetPc_lt {cfg : Config} (hcfg : cfg.WellFormed) : cfg.resetPc < 2 ^ cfg.xlen.bits := by
  obtain ⟨-, -, hreset, -, -⟩ := hcfg
  exact hreset

end Sys2Proof

namespace Sys2Proof.Machine

/-- x1 is stored first, so register `r` stands at `r - 1` (R10). -/
theorem Hart.readReg_of_ne_zero {w : Nat} (h : Hart w) {r : Reg} (hr : r ≠ 0) :
    h.readReg r = h.regs[r.val - 1]'(by omega) := by
  have hval : r.val ≠ 0 := Fin.val_ne_zero_iff.mpr hr
  rw [Hart.readReg, dif_neg hval]

/-- A reset address that the registers can hold is the pc itself, not reduced modulo 2^XLEN. -/
theorem State.launch_pc_toNat {cfg : Config} (hcfg : cfg.WellFormed) (regs : Vector (BitVec cfg.xlen.bits) 31)
    (image : Memory) : (State.launch cfg regs image).hart.pc.toNat = cfg.resetPc :=
  (BitVec.toNat_ofNat ..).trans (Nat.mod_eq_of_lt hcfg.resetPc_lt)

/-- Settles O37: an admitted RESET_PC fits the pc, and each register reads as the value chosen for it. -/
theorem launchLeavesResetState : Obligations.LaunchLeavesResetState := by
  intro cfg regs image hcfg s
  refine ⟨rfl, ?pc, rfl, rfl, s.hart.readReg_zero, fun r hr => ?regs⟩
  case pc => exact State.launch_pc_toNat hcfg regs image
  case regs => exact s.hart.readReg_of_ne_zero hr

end Sys2Proof.Machine

/-! ### The fields of an encoded word are the operands it was built from (R45, R49, R61) -/

namespace Sys2Proof

/-- An operand held in two pieces, put together again. -/
theorem or_place_slices {n m k : Nat} (v : BitVec n) (h : m + k = n) :
    place n (v.extractLsb' 0 m) 0 ||| place n (v.extractLsb' m k) m = v := by
  apply BitVec.eq_of_getLsbD_eq
  intro i hi
  rw [BitVec.getLsbD_or, getLsbD_place_slice v (by omega), getLsbD_place_slice v h.le]
  by_cases hlow : i < m
  · simp [hlow]
  · simp [hlow, show m ≤ i by omega, show i < m + k by omega]

section
variable (comp : BitVec 1) (rd rs1 : CReg) (rs2 : Src2) (start len dest : Nat)

theorem encodeBf_slices :
    (encodeBf comp rd rs1 rs2 start len dest).extractLsb' 0 7 = 0b1111011#7 ∧
    (encodeBf comp rd rs1 rs2 start len dest).extractLsb' 7 3 = cregBits rd ∧
    (encodeBf comp rd rs1 rs2 start len dest).extractLsb' 10 1 = src2Bits rs2 ∧
    (encodeBf comp rd rs1 rs2 start len dest).extractLsb' 11 1 = comp ∧
    (encodeBf comp rd rs1 rs2 start len dest).extractLsb' 15 3 = cregBits rs1 := by
  refine ⟨?_, ?_, ?_, ?_, ?_⟩ <;> simp [encodeBf, BitVec.extractLsb'_or]

theorem bfStart_encodeBf : bfStart (encodeBf comp rd rs1 rs2 start len dest) = BitVec.ofNat 6 start := by
  simp [bfStart, encodeBf, BitVec.extractLsb'_or, or_place_slices]

theorem bfLenField_encodeBf : bfLenField (encodeBf comp rd rs1 rs2 start len dest) = BitVec.ofNat 5 len := by
  simp [bfLenField, encodeBf, BitVec.extractLsb'_or, or_place_slices]

theorem bfDest_encodeBf : bfDest (encodeBf comp rd rs1 rs2 start len dest) = BitVec.ofNat 6 dest := by
  simp [bfDest, encodeBf, BitVec.extractLsb'_or]

end

/-- Legal operands fit their fields (R32 to R34). -/
theorem Xlen.BfLegal.lt {x : Xlen} {start len dest : Nat} (h : x.BfLegal start len dest) :
    start < 2 ^ 6 ∧ len ≤ 32 ∧ dest < 2 ^ 6 := by
  obtain ⟨⟨hpos, hmax⟩, hstart, hdest⟩ := h
  cases x <;> simp only [Xlen.bits, Xlen.maxLen] at * <;> omega

section
variable {x : Xlen} {start len dest : Nat} (h : x.BfLegal start len dest) (comp : BitVec 1) (rd rs1 : CReg) (rs2 : Src2)
include h

/-- The operands of a word built from legal operands are those operands. -/
theorem operands_encodeBf :
    (bfStart (encodeBf comp rd rs1 rs2 start len dest)).toNat = start ∧
    lenOf (bfLenField (encodeBf comp rd rs1 rs2 start len dest)) = len ∧
    (bfDest (encodeBf comp rd rs1 rs2 start len dest)).toNat = dest := by
  obtain ⟨hstart, hlen, hdest⟩ := h.lt
  obtain ⟨⟨hpos, -⟩, -⟩ := h
  rw [bfStart_encodeBf, bfLenField_encodeBf, bfDest_encodeBf]
  exact ⟨toNat_ofNat_of_lt hstart, lenOf_ofNat hpos hlen, toNat_ofNat_of_lt hdest⟩

theorem decode32_encodeBf : decode32 x (encodeBf comp rd rs1 rs2 start len dest) =
    .ok ((if comp = 0#1 then Instr.bfxp else Instr.bfxpc) rd rs1 rs2 start len dest) := by
  obtain ⟨hop, hrd, hrs2, hcomp, hrs1⟩ := encodeBf_slices comp rd rs1 rs2 start len dest
  obtain ⟨hstart, hlen, hdest⟩ := operands_encodeBf h comp rd rs1 rs2
  rw [decode32_of_legal hop (by rwa [BfLegalWord, hstart, hlen, hdest]), bfInstr, hrd, hrs2, hcomp, hrs1, hstart, hlen,
    hdest, cregOf_cregBits, cregOf_cregBits, src2Of_src2Bits]

end

section
variable (x : Xlen) (op : BitVec 7) (f3 : BitVec 3) (f7 : BitVec 7) (f6 : BitVec 6) (rd rs1 rs2 : Reg)

theorem encodeI_slices (imm : BitVec 12) :
    (encodeI op f3 rd rs1 imm).extractLsb' 0 7 = op ∧ (encodeI op f3 rd rs1 imm).extractLsb' 12 3 = f3 ∧
    (encodeI op f3 rd rs1 imm).extractLsb' 7 5 = regBits rd ∧
    (encodeI op f3 rd rs1 imm).extractLsb' 15 5 = regBits rs1 ∧ (encodeI op f3 rd rs1 imm).extractLsb' 20 12 = imm := by
  refine ⟨?_, ?_, ?_, ?_, ?_⟩ <;> simp [encodeI, BitVec.extractLsb'_or]

theorem encodeShift_slices (shamt : Nat) :
    (encodeShift f3 f6 rd rs1 shamt).extractLsb' 0 7 = 0b0010011#7 ∧
    (encodeShift f3 f6 rd rs1 shamt).extractLsb' 12 3 = f3 ∧ (encodeShift f3 f6 rd rs1 shamt).extractLsb' 26 6 = f6 ∧
    (encodeShift f3 f6 rd rs1 shamt).extractLsb' 7 5 = regBits rd ∧
    (encodeShift f3 f6 rd rs1 shamt).extractLsb' 15 5 = regBits rs1 ∧
    (encodeShift f3 f6 rd rs1 shamt).extractLsb' 20 6 = BitVec.ofNat 6 shamt := by
  refine ⟨?_, ?_, ?_, ?_, ?_, ?_⟩ <;> simp [encodeShift, BitVec.extractLsb'_or]

theorem encodeR_slices :
    (encodeR op f3 f7 rd rs1 rs2).extractLsb' 0 7 = op ∧ (encodeR op f3 f7 rd rs1 rs2).extractLsb' 12 3 = f3 ∧
    (encodeR op f3 f7 rd rs1 rs2).extractLsb' 25 7 = f7 ∧ (encodeR op f3 f7 rd rs1 rs2).extractLsb' 7 5 = regBits rd ∧
    (encodeR op f3 f7 rd rs1 rs2).extractLsb' 15 5 = regBits rs1 ∧
    (encodeR op f3 f7 rd rs1 rs2).extractLsb' 20 5 = regBits rs2 := by
  refine ⟨?_, ?_, ?_, ?_, ?_, ?_⟩ <;> simp [encodeR, BitVec.extractLsb'_or]

theorem encodeS_slices (imm : BitVec 12) :
    (encodeS op f3 rs2 rs1 imm).extractLsb' 0 7 = op ∧ (encodeS op f3 rs2 rs1 imm).extractLsb' 12 3 = f3 ∧
    (encodeS op f3 rs2 rs1 imm).extractLsb' 15 5 = regBits rs1 ∧
    (encodeS op f3 rs2 rs1 imm).extractLsb' 20 5 = regBits rs2 ∧ immS (encodeS op f3 rs2 rs1 imm) = immS (layS imm) := by
  refine ⟨?_, ?_, ?_, ?_, ?_⟩ <;> simp [immS, encodeS, layS, BitVec.extractLsb'_or]

theorem encodeB_slices (imm : BitVec 13) :
    (encodeB op f3 rs1 rs2 imm).extractLsb' 0 7 = op ∧ (encodeB op f3 rs1 rs2 imm).extractLsb' 12 3 = f3 ∧
    (encodeB op f3 rs1 rs2 imm).extractLsb' 15 5 = regBits rs1 ∧
    (encodeB op f3 rs1 rs2 imm).extractLsb' 20 5 = regBits rs2 ∧ immB (encodeB op f3 rs1 rs2 imm) = immB (layB imm) := by
  refine ⟨?_, ?_, ?_, ?_, ?_⟩ <;> simp [immB, encodeB, layB, BitVec.extractLsb'_or]

end

section
variable (rd : CReg) (rs1 : Reg) (shamt : Nat)

theorem encodeCSrai_slices :
    (encodeCSrai rd shamt).extractLsb' 0 2 = 0b01#2 ∧ (encodeCSrai rd shamt).extractLsb' 13 3 = 0b100#3 ∧
    (encodeCSrai rd shamt).extractLsb' 10 2 = 0b01#2 ∧ (encodeCSrai rd shamt).extractLsb' 7 3 = cregBits rd ∧
    cShamt (encodeCSrai rd shamt) = BitVec.ofNat 6 shamt := by
  refine ⟨?_, ?_, ?_, ?_, ?_⟩ <;> simp [cShamt, encodeCSrai, BitVec.extractLsb'_or, or_place_slices]

theorem encodeCJr_slices :
    (encodeCJr rs1).extractLsb' 0 2 = 0b10#2 ∧ (encodeCJr rs1).extractLsb' 12 4 = 0b1000#4 ∧
    (encodeCJr rs1).extractLsb' 2 5 = 0#5 ∧ (encodeCJr rs1).extractLsb' 7 5 = regBits rs1 := by
  refine ⟨?_, ?_, ?_, ?_⟩ <;> simp [encodeCJr, BitVec.extractLsb'_or]

end

theorem Xlen.bits_le (x : Xlen) : x.bits ≤ 2 ^ 6 := by
  cases x <;> decide

section
variable {cfg : Config}

theorem decode32_encodeShift {f : Reg → Reg → Nat → Instr} {f3 : BitVec 3} {f6 : BitVec 6} (hf : (f, f3, f6) ∈ shiftRows)
    (rd rs1 : Reg) {shamt : Nat} (hshamt : shamt < cfg.xlen.bits) :
    decode32 cfg.xlen (encodeShift f3 f6 rd rs1 shamt) = .ok (f rd rs1 shamt) := by
  obtain ⟨hop, hf3, hf6, hrd, hrs1, hsh⟩ := encodeShift_slices f3 f6 rd rs1 shamt
  have hfits : (BitVec.ofNat 6 shamt).toNat = shamt := toNat_ofNat_of_lt (hshamt.trans_le cfg.xlen.bits_le)
  rw [decode32_of_opImm hop, decodeOpImm_of_shift (by rwa [hf3, hf6]), hrd, hrs1, hsh, hfits, if_pos hshamt, regOf_regBits,
    regOf_regBits]

theorem decode16_encodeCSrai (hC : cfg.hasC = true) (rd : CReg) {shamt : Nat} (hpos : shamt ≠ 0)
    (hlt : shamt < cfg.xlen.bits) : decode16 cfg (encodeCSrai rd shamt) = .ok (.cSrai rd shamt) := by
  obtain ⟨hop, hf3, hf2, hrd, hsh⟩ := encodeCSrai_slices rd shamt
  have hfits : (BitVec.ofNat 6 shamt).toNat = shamt := toNat_ofNat_of_lt (hlt.trans_le cfg.xlen.bits_le)
  rw [decode16_of_cSrai hC hop hf3 hf2, hsh, hfits, if_neg hpos, if_pos hlt, hrd, cregOf_cregBits]

theorem decode16_encodeCJr (hC : cfg.hasC = true) {rs1 : Reg} (hrs1 : rs1 ≠ 0) :
    decode16 cfg (encodeCJr rs1) = .ok (.cJr rs1) := by
  obtain ⟨hop, hf4, hrs2, hreg⟩ := encodeCJr_slices rs1
  have hne : regBits rs1 ≠ 0#5 := fun h0 => hrs1 (by rw [← regOf_regBits rs1, h0]; rfl)
  rw [decode16_of_cJr hC hop hf4 hrs2, hreg, if_neg hne, regOf_regBits]

/-- The decoder reads every well-formed instruction back from its word (R45, R61). -/
theorem decodeWord_encode {i : Instr} (h : i.wellFormed cfg = true) : decodeWord cfg (encode i) = .ok i := by
  cases i
  case bfxp rd rs1 rs2 start len dest => exact decode32_encodeBf (of_decide_eq_true h) 0#1 rd rs1 rs2
  case bfxpc rd rs1 rs2 start len dest => exact decode32_encodeBf (of_decide_eq_true h) 1#1 rd rs1 rs2
  case addi rd rs1 imm =>
    obtain ⟨hop, hf3, hrd, hrs1, himm⟩ := encodeI_slices 0b0010011#7 0b000#3 rd rs1 imm
    rw [encode, decodeWord, decode32_of_opImm hop, decodeOpImm_of_addi hf3, hrd, hrs1, himm, regOf_regBits, regOf_regBits]
  case slli rd rs1 shamt => exact decode32_encodeShift (by simp [shiftRows]) rd rs1 (of_decide_eq_true h)
  case srli rd rs1 shamt => exact decode32_encodeShift (by simp [shiftRows]) rd rs1 (of_decide_eq_true h)
  case srai rd rs1 shamt => exact decode32_encodeShift (by simp [shiftRows]) rd rs1 (of_decide_eq_true h)
  case or rd rs1 rs2 =>
    obtain ⟨hop, hf3, hf7, hrd, hrs1, hrs2⟩ := encodeR_slices 0b0110011#7 0b110#3 0b0000000#7 rd rs1 rs2
    rw [encode, decodeWord, decode32_of_or hop hf3 hf7, hrd, hrs1, hrs2, regOf_regBits, regOf_regBits, regOf_regBits]
  case lw rd rs1 imm =>
    obtain ⟨hop, hf3, hrd, hrs1, himm⟩ := encodeI_slices 0b0000011#7 0b010#3 rd rs1 imm
    rw [encode, decodeWord, decode32_of_lw hop hf3, hrd, hrs1, himm, regOf_regBits, regOf_regBits]
  case sw rs2 rs1 imm =>
    obtain ⟨hop, hf3, hrs1, hrs2, himm⟩ := encodeS_slices 0b0100011#7 0b010#3 rs1 rs2 imm
    rw [encode, decodeWord, decode32_of_sw hop hf3, hrs1, hrs2, himm, immS_layS, regOf_regBits, regOf_regBits]
  case bne rs1 rs2 offset =>
    obtain ⟨hop, hf3, hrs1, hrs2, himm⟩ := encodeB_slices 0b1100011#7 0b001#3 rs1 rs2 offset
    have heven : offset.getLsbD 0 = false := by simpa [Instr.wellFormed] using h
    rw [encode, decodeWord, decode32_of_bne hop hf3, hrs1, hrs2, himm, immB_layB heven, regOf_regBits, regOf_regBits]
  case jalr rd rs1 imm =>
    obtain ⟨hop, hf3, hrd, hrs1, himm⟩ := encodeI_slices 0b1100111#7 0b000#3 rd rs1 imm
    rw [encode, decodeWord, decode32_of_jalr hop hf3, hrd, hrs1, himm, regOf_regBits, regOf_regBits]
  case cSrai rd shamt =>
    simp only [Instr.wellFormed, Bool.and_eq_true, decide_eq_true_eq] at h
    obtain ⟨⟨hC, hpos⟩, hlt⟩ := h
    exact decode16_encodeCSrai hC rd hpos hlt
  case cJr rs1 =>
    simp only [Instr.wellFormed, Bool.and_eq_true, decide_eq_true_eq] at h
    obtain ⟨hC, hrs1⟩ := h
    exact decode16_encodeCJr hC hrs1

end

/-! ### The decoder on bytes -/

/-- Every instruction's word tells its own length (R29). -/
theorem lengthOk_encode (i : Instr) : (encode i).lengthOk = true := by
  cases i
  case bfxp => exact Laws.LengthRule.bfxp ..
  case bfxpc => exact Laws.LengthRule.bfxpc ..
  case addi => exact Laws.LengthRule.addi ..
  case slli => exact Laws.LengthRule.slli ..
  case srli => exact Laws.LengthRule.srli ..
  case srai => exact Laws.LengthRule.srai ..
  case or => exact Laws.LengthRule.or ..
  case lw => exact Laws.LengthRule.lw ..
  case sw => exact Laws.LengthRule.sw ..
  case bne => exact Laws.LengthRule.bne ..
  case jalr => exact Laws.LengthRule.jalr ..
  case cSrai => exact Laws.LengthRule.cSrai ..
  case cJr => exact Laws.LengthRule.cJr ..

/-- The first parcel of a 32-bit word has the word's bits 1:0, so it is not taken for a 16-bit instruction (R29). -/
theorem isHalf_slice_of_lengthOk {w : BitVec 32} (h : (InstrWord.full w).lengthOk = true) :
    isHalf (w.extractLsb' 0 16) = false := by
  rw [isHalf, BitVec.extractLsb'_extractLsb'_of_le (by decide)]
  simpa [InstrWord.lengthOk] using h

/-- A word that tells its own length is the first thing decoded from its bytes, and the bytes after it are left. -/
theorem decode_bytes_append {cfg : Config} {iw : InstrWord} {i : Instr} (hlen : iw.lengthOk = true)
    (h : decodeWord cfg iw = .ok i) (rest : List Byte) : decode cfg (iw.bytes ++ rest) = .ok (i, rest) := by
  cases iw with
  | half p =>
    have hhalf : isHalf p = true := hlen
    have hdec : decode16 cfg p = .ok i := h
    simp [InstrWord.bytes, decode, parcelOf_slices p 0, hhalf, hdec]
  | full w =>
    have hfull := isHalf_slice_of_lengthOk hlen
    have hdec : decode32 cfg.xlen w = .ok i := h
    simp [InstrWord.bytes, decode, parcelOf_slices w 0, parcelOf_slices w 16, hfull, wordOf_slices, hdec]

/-- Settles O2: the word decodes to its instruction, and its bytes decode as the word. -/
theorem decodeOfEncodedInstruction : Obligations.DecodeOfEncodedInstruction := by
  intro cfg i rest hwf
  exact decode_bytes_append (lengthOk_encode i) (decodeWord_encode hwf) rest

/-- Settles O3, from the inversion lemma of each decoder and the cover of a word by its fields. -/
theorem decodedWordIsItsEncoding : Obligations.DecodedWordIsItsEncoding := by
  intro cfg iw i h
  exact wellFormed_encode_of_decodeWord h

end Sys2Proof

/-! ### Steps: what a faulting instruction, fetch or step has raised, and that nothing is refused -/

namespace Sys2Proof.Machine

/-- The exceptions that a decoded instruction can raise, each with the condition on the value it records
(60_exceptions.md section 2). -/
inductive Raises (s : State) : Instr → Fault → Prop where
  | bne (rs1 rs2 : Reg) (offset : BitVec 13) {t : Nat} (ht : t % s.cfg.ialignBytes ≠ 0) :
      Raises s (.bne rs1 rs2 offset) (.instructionAddressMisaligned s.hart.pc.toNat t)
  | jalr (rd rs1 : Reg) (imm : BitVec 12) {t : Nat} (ht : t % s.cfg.ialignBytes ≠ 0) :
      Raises s (.jalr rd rs1 imm) (.instructionAddressMisaligned s.hart.pc.toNat t)
  | cJr (rs1 : Reg) {t : Nat} (ht : t % s.cfg.ialignBytes ≠ 0) :
      Raises s (.cJr rs1) (.instructionAddressMisaligned s.hart.pc.toNat t)
  | lwMisaligned (rd rs1 : Reg) (imm : BitVec 12) {a : Nat} (ha : a % 4 ≠ 0) :
      Raises s (.lw rd rs1 imm) (.loadAddressMisaligned s.hart.pc.toNat a)
  | lwAccess (rd rs1 : Reg) (imm : BitVec 12) {a : Nat} (ha : ¬ s.cfg.Inside none a 4) :
      Raises s (.lw rd rs1 imm) (.loadAccessFault s.hart.pc.toNat a)
  | swMisaligned (rs2 rs1 : Reg) (imm : BitVec 12) {a : Nat} (ha : a % 4 ≠ 0) :
      Raises s (.sw rs2 rs1 imm) (.storeAddressMisaligned s.hart.pc.toNat a)
  | swAccess (rs2 rs1 : Reg) (imm : BitVec 12) {a : Nat} (ha : ¬ s.cfg.Inside (some .data) a 4) :
      Raises s (.sw rs2 rs1 imm) (.storeAccessFault s.hart.pc.toNat a)

/-- A jump completes or raises InstructionAddressMisaligned with its target (R22). -/
theorem onHart_jumpTo_outcome (s : State) (t : BitVec s.cfg.xlen.bits) :
    (∃ s', s.onHart (·.jumpTo s.cfg t) = .next s') ∨
    t.toNat % s.cfg.ialignBytes ≠ 0 ∧
      s.onHart (·.jumpTo s.cfg t) = .fault (.instructionAddressMisaligned s.hart.pc.toNat t.toNat) := by
  obtain ⟨-, hj⟩ | ⟨hbad, hj⟩ := s.hart.jumpTo_cases s.cfg t
  · exact .inl ⟨_, State.onHart_of_next hj⟩
  · exact .inr ⟨hbad, State.onHart_of_fault hj⟩

/-- The two kinds of outcome of an instruction: it completes, or it raises an exception that is listed for it. -/
theorem exec_outcome (i : Instr) (s : State) : (∃ t, exec i s = .next t) ∨ ∃ e, exec i s = .fault e ∧ Raises s i e := by
  obtain ⟨cfg, h⟩ := s
  cases i
  case bfxp | bfxpc | addi | slli | srli | srai | or | cSrai => exact .inl ⟨_, rfl⟩
  case lw rd rs1 imm =>
    by_cases ha : (effectiveAddress h rs1 imm).toNat % 4 = 0
    · by_cases hin : cfg.Inside none (effectiveAddress h rs1 imm).toNat 4
      · exact .inl ⟨_, exec_lw_of_inside ha hin⟩
      · exact .inr ⟨_, exec_lw_of_not_inside ha hin, .lwAccess rd rs1 imm hin⟩
    · exact .inr ⟨_, exec_lw_of_misaligned ha, .lwMisaligned rd rs1 imm ha⟩
  case sw rs2 rs1 imm =>
    by_cases ha : (effectiveAddress h rs1 imm).toNat % 4 = 0
    · by_cases hin : cfg.Inside (some .data) (effectiveAddress h rs1 imm).toNat 4
      · exact .inl ⟨_, exec_sw_of_inside ha hin⟩
      · exact .inr ⟨_, exec_sw_of_not_inside ha hin, .swAccess rs2 rs1 imm hin⟩
    · exact .inr ⟨_, exec_sw_of_misaligned ha, .swMisaligned rs2 rs1 imm ha⟩
  case bne rs1 rs2 offset =>
    by_cases heq : h.readReg rs1 = h.readReg rs2
    · exact .inl ⟨_, exec_bne_of_eq heq offset⟩
    · rw [exec_bne_of_ne heq]
      exact (onHart_jumpTo_outcome ⟨cfg, h⟩ _).imp_right fun ⟨ht, hj⟩ => ⟨_, hj, .bne rs1 rs2 offset ht⟩
  case jalr rd rs1 imm =>
    by_cases ht : (jalrTarget h rs1 imm).toNat % cfg.ialignBytes = 0
    · exact .inl ⟨_, exec_jalr_of_aligned h rd rs1 imm ht⟩
    · exact .inr ⟨_, exec_jalr_of_misaligned h rd rs1 imm ht, .jalr rd rs1 imm ht⟩
  case cJr rs1 =>
    rw [exec_cJr]
    exact (onHart_jumpTo_outcome ⟨cfg, h⟩ _).imp_right fun ⟨ht, hj⟩ => ⟨_, hj, .cJr rs1 ht⟩

theorem raises_of_exec_fault {i : Instr} {s : State} {e : Fault} (h : exec i s = .fault e) : Raises s i e := by
  obtain ⟨t, ht⟩ | ⟨e', he', hraises⟩ := exec_outcome i s
  · rw [ht] at h
    cases h
  · rw [he'] at h
    cases h
    exact hraises

theorem exec_ne_refused (i : Instr) (s : State) (r : Refusal) : exec i s ≠ .refused r := by
  obtain ⟨t, ht⟩ | ⟨e, he, -⟩ := exec_outcome i s
  · simp [ht]
  · simp [he]

/-- Settles O44: the exceptions listed for each instruction, with their causes. -/
theorem onlyListedInstructionsRaise : Obligations.OnlyListedInstructionsRaise := by
  intro i s e h
  cases raises_of_exec_fault h
  case bne | jalr | cJr => exact .inl ⟨by simp [Instr.mnemonic], _, ‹_›, rfl, rfl⟩
  case lwMisaligned ha => exact .inr (.inl ⟨rfl, .inl ⟨_, ha, rfl, rfl⟩⟩)
  case lwAccess ha => exact .inr (.inl ⟨rfl, .inr ⟨_, ha, rfl, rfl⟩⟩)
  case swMisaligned ha => exact .inr (.inr ⟨rfl, .inl ⟨_, ha, rfl, rfl⟩⟩)
  case swAccess ha => exact .inr (.inr ⟨rfl, .inr ⟨_, ha, rfl, rfl⟩⟩)

/-- The parameters and the fault record are outside what an instruction can write. -/
theorem exec_next_frame {i : Instr} {s t : State} (h : exec i s = .next t) :
    t.cfg = s.cfg ∧ t.hart.fault = s.hart.fault := by
  obtain ⟨r, v, pc', m, rfl, -⟩ := exec_next_cases h
  exact ⟨rfl, by simp⟩

/-- Settles O45: no part of a step refuses, and an instruction runs only where no fault is recorded. -/
theorem stepIsNeverRefused : Obligations.StepIsNeverRefused := by
  refine fun s => ⟨fun r hr => ?refused, fun t ht => ?next⟩
  case refused =>
    cases hfault : s.hart.fault with
    | some e =>
      rw [step_of_fault hfault] at hr
      cases hr
    | none =>
      rw [step_of_fetchDecode hfault] at hr
      split at hr
      · cases hr
      · exact exec_ne_refused _ s r hr
  case next =>
    obtain ⟨hfault, i, -, hexec⟩ := step_next_cases ht
    obtain ⟨hcfg, hrecord⟩ := exec_next_frame hexec
    exact ⟨hcfg, hrecord.trans hfault⟩

/-! ### A fault is precise and terminal (R82, R85) -/

/-- The constructors of `Fault` as functions of the pc and the value, in the order of R81. -/
def faultKinds : List (Nat → Nat → Fault) :=
  [.instructionAddressMisaligned, .instructionAccessFault, .illegalInstruction, .loadAddressMisaligned,
    .loadAccessFault, .storeAddressMisaligned, .storeAccessFault]

/-- The fault names `pc` as the address of the instruction that raised it (R82). -/
def Fault.At (e : Fault) (pc : Nat) : Prop := ∃ (E : Nat → Nat → Fault) (v : Nat), e = E pc v ∧ E ∈ faultKinds

theorem Raises.at_pc {s : State} {i : Instr} {e : Fault} (h : Raises s i e) : e.At s.hart.pc.toNat := by
  cases h <;> exact ⟨_, _, rfl, by simp [faultKinds]⟩

theorem fetchDecode_error_at_pc {w : Nat} {cfg : Config} {h : Hart w} {e : Fault} (he : fetchDecode cfg h = .error e) :
    e.At h.pc.toNat := by
  have hfetch {e : Fault} (he : fetch cfg h = .error e) : e.At h.pc.toNat := by
    unfold fetch at he
    dsimp only at he
    split_ifs at he <;> cases he <;> exact ⟨_, _, rfl, by simp [faultKinds]⟩
  unfold fetchDecode at he
  split at he
  case h_1 he' =>
    cases he
    exact hfetch he'
  case h_2 =>
    split at he <;> cases he
    exact ⟨_, _, rfl, by simp [faultKinds]⟩

/-- A fault of a hart with none recorded is raised at its pc. -/
theorem step_fault_at_pc {s : State} {e : Fault} (hnone : s.hart.fault = none) (h : step s = .fault e) :
    e.At s.hart.pc.toNat := by
  rw [step_of_fetchDecode hnone] at h
  cases hfd : fetchDecode s.cfg s.hart with
  | error e' =>
    rw [hfd] at h
    cases h
    exact fetchDecode_error_at_pc hfd
  | ok i =>
    rw [hfd] at h
    exact (raises_of_exec_fault h).at_pc

/-- A recorded fault is kept (R85). -/
theorem Hart.recordFault_of_fault {w : Nat} {h : Hart w} {e : Fault} (hf : h.fault = some e) (e' : Fault) :
    h.recordFault e' = h := by
  unfold Hart.recordFault; rw [hf]

/-- A hart with a fault recorded is left as it is by its steps (R82, log 6). -/
theorem stepState_of_fault {s : State} {e : Fault} (hf : s.hart.fault = some e) : stepState s = s := by
  rw [stepState, step_of_fault hf, State.settle_fault, Hart.recordFault_of_fault hf]

theorem not_final_of_fault {s : State} {e : Fault} (hf : s.hart.fault = some e) : ¬ s.Final := by
  rintro ⟨-, hnone⟩
  rw [hf] at hnone
  cases hnone

/-- Settles O43: the state left behind has the fault recorded, and a recorded fault stops the hart. -/
theorem faultIsPreciseAndTerminal : Obligations.FaultIsPreciseAndTerminal := by
  intro s e hnone hstep
  have hleft : stepState s = ⟨s.cfg, { s.hart with fault := some e }⟩ := settle_of_fault hstep hnone
  have hrecord : (stepState s).hart.fault = some e := by rw [hleft]
  exact ⟨step_fault_at_pc hnone hstep, hleft, step_of_fault hrecord, stepState_of_fault hrecord,
    not_final_of_fault hrecord⟩

/-! ### Runs: where they end (R95) -/

/-- A run that completes its first step is that step and the rest of the run. -/
theorem core_run_succ {M : Host.Core} {n : Nat} {s s' : M.State} (h : M.step s = .next s') :
    M.run (n + 1) s = M.run n s' := by
  simp only [Host.Core.run, h]

theorem core_run_succ_next {M : Host.Core} {n : Nat} {s t : M.State} (h : M.run (n + 1) s = .next t) :
    ∃ s', M.step s = .next s' ∧ M.run n s' = .next t := by
  rw [Host.Core.run] at h
  split at h
  case h_1 s' hs' => exact ⟨s', hs', h⟩
  all_goals cases h

theorem run_final {n : Nat} {s t : State} (h : run n s = .final t) :
    t.Final ∧ ∃ k, 1 ≤ k ∧ k ≤ n ∧ Sys2Proof.core.run k s = .next t := by
  induction n generalizing s with
  | zero => cases h
  | succ n ih =>
    rw [run] at h
    split at h
    case h_1 s' hs' =>
      split at h
      case isTrue hfinal =>
        cases h
        exact ⟨hfinal, 1, le_rfl, by omega, core_run_succ hs'⟩
      case isFalse =>
        obtain ⟨hfinal, k, hpos, hle, hrun⟩ := ih h
        exact ⟨hfinal, k + 1, by omega, by omega, (core_run_succ hs').trans hrun⟩
    all_goals cases h

/-- Where a step faults, the state it leaves has a fault recorded, this one or an earlier one. -/
theorem Hart.recordFault_fault_ne_none {w : Nat} (h : Hart w) (e : Fault) : (h.recordFault e).fault ≠ none := by
  unfold Hart.recordFault
  split
  · simp
  · simp [*]

theorem run_faulted {n : Nat} {s t : State} (h : run n s = .faulted t) : t.hart.fault ≠ none := by
  induction n generalizing s with
  | zero => cases h
  | succ n ih =>
    rw [run] at h
    split at h
    case h_1 =>
      split at h
      · cases h
      · exact ih h
    case h_2 e _ =>
      cases h
      exact s.hart.recordFault_fault_ne_none e
    case h_3 => cases h

/-- Settles O48: a run ends where its own test for HALT_PC succeeds, and a recorded fault is never final. -/
theorem runsEndOnlyAtHaltPc : Obligations.RunsEndOnlyAtHaltPc := by
  refine ⟨fun n s t h => ?final, fun n s t h => ?faulted⟩
  case final =>
    obtain ⟨⟨hpc, hnone⟩, hsteps⟩ := run_final h
    exact ⟨hpc, hnone, hsteps⟩
  case faulted =>
    have hfault := run_faulted h
    exact ⟨fun ⟨_, hnone⟩ => hfault hnone, hfault⟩

end Sys2Proof.Machine

/-! ### Alignment of the pc (R13, R22) -/

namespace Sys2Proof

/-- IALIGN/8 divides the length of a 32-bit instruction. -/
theorem Config.ialignBytes_dvd_four (cfg : Config) : cfg.ialignBytes ∣ 4 := by
  unfold Config.ialignBytes
  split <;> decide

/-- With HAS_C, IALIGN/8 divides the length of a 16-bit instruction. -/
theorem Config.ialignBytes_dvd_two {cfg : Config} (hC : cfg.hasC = true) : cfg.ialignBytes ∣ 2 := by
  simp [Config.ialignBytes, hC]

theorem Xlen.four_dvd_two_pow_bits (x : Xlen) : 4 ∣ 2 ^ x.bits := by
  cases x <;> decide

/-- A machine that decodes `c.srai` has the 16-bit instructions (R72). -/
theorem hasC_of_decodeWord_cSrai {cfg : Config} {iw : InstrWord} {rd : CReg} {shamt : Nat}
    (h : decodeWord cfg iw = .ok (.cSrai rd shamt)) : cfg.hasC = true := by
  obtain ⟨hwf, -⟩ := wellFormed_encode_of_decodeWord h
  simp only [Instr.wellFormed, Bool.and_eq_true] at hwf
  obtain ⟨⟨hC, -⟩, -⟩ := hwf
  exact hC

end Sys2Proof

namespace Sys2Proof.Machine

theorem fetchDecode_ok {w : Nat} {cfg : Config} {h : Hart w} {i : Instr} (hi : fetchDecode cfg h = .ok i) :
    ∃ iw, fetch cfg h = .ok iw ∧ decodeWord cfg iw = .ok i := by
  unfold fetchDecode at hi
  split at hi
  · cases hi
  · rename_i iw hfetch
    split at hi <;> cases hi
    exact ⟨iw, hfetch, ‹_›⟩

/-- Adding a multiple of IALIGN/8 to an aligned address gives an aligned one, also where it wraps (R13). -/
theorem aligned_add {cfg : Config} {pc : BitVec cfg.xlen.bits} {n : Nat} (hpc : pc.toNat % cfg.ialignBytes = 0)
    (hn : cfg.ialignBytes ∣ n) : (pc + BitVec.ofNat _ n).toNat % cfg.ialignBytes = 0 := by
  have hwrap : cfg.ialignBytes ∣ 2 ^ cfg.xlen.bits := cfg.ialignBytes_dvd_four.trans cfg.xlen.four_dvd_two_pow_bits
  rw [toNat_addr_add, Nat.mod_mod_of_dvd _ hwrap]
  exact Nat.mod_eq_zero_of_dvd (Nat.dvd_add (Nat.dvd_of_mod_eq_zero hpc) hn)

/-! ### The invariant: every step keeps it, and so does every run (R13, R16, R22) -/

/-- A store keeps memory canonical and lists XLEN-bit addresses only. -/
theorem Memory.write_inv {w k : Nat} {m : Memory} (addr : BitVec w) (v : BitVec k) (n : Nat) (hwf : m.wf)
    (hlt : ∀ c ∈ m, c.1 < 2 ^ w) : (m.write addr v n).wf ∧ ∀ c ∈ m.write addr v n, c.1 < 2 ^ w := by
  refine ⟨Memory.write_wf addr v n hwf, fun c hc => ?_⟩
  obtain hold | ⟨i, -, hnew⟩ := Memory.mem_write hc
  · exact hlt c hold
  · rw [hnew]
    exact BitVec.isLt _

/-- The instruction fetched matters for `c.srai` alone, which is two bytes long: only a machine with HAS_C decodes it. -/
theorem inv_of_exec_next {i : Instr} {s t : State} (hinv : s.Inv) (hi : fetchDecode s.cfg s.hart = .ok i)
    (h : exec i s = .next t) : t.Inv := by
  obtain ⟨hwf, hlt, hpc⟩ := hinv
  obtain ⟨r, v, pc', m, rfl, hmem, htarget⟩ := exec_next_cases h
  have hm : m.wf ∧ ∀ c ∈ m, c.1 < 2 ^ s.cfg.xlen.bits := by
    obtain rfl | ⟨rs2, rs1, imm, -, -, -, rfl⟩ := hmem
    · exact ⟨hwf, hlt⟩
    · exact Memory.write_inv _ _ 4 hwf hlt
  have hpc' : pc'.toNat % s.cfg.ialignBytes = 0 := by
    obtain rfl | ⟨rfl, rd, shamt, rfl⟩ | haligned := htarget
    · exact aligned_add hpc s.cfg.ialignBytes_dvd_four
    · obtain ⟨iw, -, hdec⟩ := fetchDecode_ok hi
      exact aligned_add hpc (Config.ialignBytes_dvd_two (hasC_of_decodeWord_cSrai hdec))
    · exact haligned
  obtain ⟨hmwf, hmlt⟩ := hm
  exact ⟨hmwf, hmlt, hpc'⟩

/-- Settles O46: a store keeps memory canonical, and the next pc is an aligned sum or a checked target. -/
theorem stepKeepsInvariant : Obligations.StepKeepsInvariant := by
  intro s t hinv hstep
  obtain ⟨-, i, hi, hexec⟩ := step_next_cases hstep
  exact inv_of_exec_next hinv hi hexec

/-- What holds of a state reached from `s`: the invariant, and the parameters and the text of `s`. -/
def KeepsFrom (s t : State) : Prop :=
  t.Inv ∧ t.cfg = s.cfg ∧ ∀ a, s.cfg.InText a → t.hart.mem.byte a = s.hart.mem.byte a

theorem KeepsFrom.refl {s : State} (hinv : s.Inv) : KeepsFrom s s :=
  ⟨hinv, rfl, fun _ _ => rfl⟩

theorem KeepsFrom.trans {s t u : State} (hst : KeepsFrom s t) (htu : KeepsFrom t u) : KeepsFrom s u := by
  obtain ⟨-, hcfg, htext⟩ := hst
  obtain ⟨hinv, hcfg', htext'⟩ := htu
  exact ⟨hinv, hcfg'.trans hcfg, fun a ha => (htext' a (hcfg ▸ ha)).trans (htext a ha)⟩

theorem keepsFrom_of_step {s t : State} (hcfg : s.cfg.WellFormed) (hinv : s.Inv) (h : step s = .next t) :
    KeepsFrom s t := by
  obtain ⟨-, hnext⟩ := stepIsNeverRefused s
  obtain ⟨hparams, -⟩ := hnext t h
  obtain ⟨htext, -⟩ := textIsImmutable
  have ⟨hwf, _⟩ := hinv
  exact ⟨stepKeepsInvariant s t hinv h, hparams, htext s t hcfg hwf h⟩

/-- Settles O47, by induction on the number of steps: each keeps the invariant, and an admitted machine stays one. -/
theorem runsKeepTextAndInvariant : Obligations.RunsKeepTextAndInvariant := by
  intro n
  induction n with
  | zero =>
    intro s t _ hinv hrun
    cases hrun
    exact KeepsFrom.refl hinv
  | succ n ih =>
    intro s t hcfg hinv hrun
    obtain ⟨s', hstep, hrest⟩ := core_run_succ_next hrun
    have hfirst : KeepsFrom s s' := keepsFrom_of_step hcfg hinv hstep
    have ⟨hinv', hcfg', _⟩ := hfirst
    exact hfirst.trans (ih s' t (hcfg' ▸ hcfg) hinv' hrest)

/-- Settles O35: memory differs only after a `sw`, and a byte outside the four that it stores is as it was. -/
theorem onlySwChangesMemory : Obligations.OnlySwChangesMemory := by
  intro s t a hwf hstep hne
  obtain hsame | ⟨rs2, rs1, imm, hfetch, hin, hmem⟩ := step_next_mem hstep
  · rw [hsame] at hne
    exact absurd rfl hne
  · refine ⟨rs2, rs1, imm, hfetch, ?_, hin⟩
    by_contra! hout
    rw [hmem] at hne
    exact hne (Memory.byte_write_ne _ _ 4 a hwf hout)

/-! ### The canonical form of memory (R16) -/

/-- In a canonical memory the listed cells are exactly the bytes that differ from what an unlisted address reads as. -/
theorem Memory.mem_iff_byte {m : Memory} (hwf : m.wf) (c : Host.Cell) :
    c ∈ m ↔ m.byte c.1 = c.2 ∧ c.2 ≠ unlistedByte := by
  obtain ⟨hsorted, hlisted⟩ := hwf
  induction m with
  | nil =>
    simp only [List.not_mem_nil, Memory.byte_nil, false_iff]
    exact fun ⟨heq, hne⟩ => hne heq.symm
  | cons d m ih =>
    obtain ⟨hd, hm⟩ := List.pairwise_cons.1 hsorted
    have ih := ih hm fun c hc => hlisted c (List.mem_cons_of_mem _ hc)
    rw [Memory.byte_cons, List.mem_cons]
    by_cases haddr : c.1 = d.1
    · have hrest : c ∉ m := fun hc => absurd (hd c hc) (by omega)
      have hdne : d.2 ≠ unlistedByte := hlisted d List.mem_cons_self
      rw [if_pos haddr, or_iff_left hrest, Prod.ext_iff, and_iff_right haddr]
      exact ⟨fun heq => ⟨heq.symm, heq ▸ hdne⟩, fun ⟨heq, _⟩ => heq.symm⟩
    · have hne : c ≠ d := fun heq => haddr (heq ▸ rfl)
      rw [if_neg haddr, or_iff_right hne, ih]

/-- Settles O32: both memories list the same cells, in the one rising order of their addresses. -/
theorem memoriesThatReadAlikeAreEqual : Obligations.MemoriesThatReadAlikeAreEqual := by
  intro m n hm hn hbyte
  have hasymm : Std.Antisymm fun c d : Host.Cell => c.1 < d.1 := ⟨fun _ _ h h' => absurd h h'.asymm⟩
  have hirrefl : Std.Irrefl fun c d : Host.Cell => c.1 < d.1 := ⟨fun _ => lt_irrefl _⟩
  have hcells : ∀ c, c ∈ m ↔ c ∈ n := fun c => by
    rw [Memory.mem_iff_byte hm, Memory.mem_iff_byte hn, hbyte]
  obtain ⟨hmsorted, -⟩ := hm
  obtain ⟨hnsorted, -⟩ := hn
  exact hmsorted.eq_of_mem_iff hnsorted hcells

end Sys2Proof.Machine

/-! ### A step by the outcome of its fetch (R29) -/

namespace Sys2Proof.Machine

section
variable {cfg : Config} {h : Hart cfg.xlen.bits} {iw : InstrWord}

theorem step_of_fetch_error {e : Fault} (hnone : h.fault = none) (hf : fetch cfg h = .error e) :
    step ⟨cfg, h⟩ = .fault e := by
  have hfd : fetchDecode cfg h = .error e := by simp only [fetchDecode, hf]
  rw [step_of_fetchDecode hnone, hfd]

theorem step_of_fetch_decoded {i : Instr} (hnone : h.fault = none) (hf : fetch cfg h = .ok iw)
    (hi : decodeWord cfg iw = .ok i) : step ⟨cfg, h⟩ = exec i ⟨cfg, h⟩ := by
  have hfd : fetchDecode cfg h = .ok i := by simp only [fetchDecode, hf, hi]
  rw [step_of_fetchDecode hnone, hfd]

theorem step_of_fetch_rejected {r : Reject} (hnone : h.fault = none) (hf : fetch cfg h = .ok iw)
    (hr : decodeWord cfg iw = .error r) : step ⟨cfg, h⟩ = .fault (.illegalInstruction h.pc.toNat iw.toNat) := by
  have hfd : fetchDecode cfg h = .error (.illegalInstruction h.pc.toNat iw.toNat) := by simp only [fetchDecode, hf, hr]
  rw [step_of_fetchDecode hnone, hfd]

/-- A word that stands at the pc and that the decoder accepts is run. -/
theorem step_of_standing_decoded {i : Instr} (hs : Standing cfg h iw) (hi : decodeWord cfg iw = .ok i) :
    step ⟨cfg, h⟩ = exec i ⟨cfg, h⟩ := by
  have ⟨hnone, _⟩ := hs
  exact step_of_fetch_decoded hnone (fetch_of_standing hs) hi

end

/-- Settles O39: the standing word is fetched, and it decodes to its instruction. -/
theorem stepRunsDecodedInstruction : Obligations.StepRunsDecodedInstruction := by
  intro cfg h i hwf hs
  exact step_of_standing_decoded hs (decodeWord_encode hwf)

/-! ### Placing a word at the pc (log 5) -/

/-- The four bytes that `placeAtPc` stores begin with the bytes of the word. -/
theorem bytes_getElem_eq_slice (iw : InstrWord) {k : Nat} (hk : k < iw.length) :
    iw.bytes[k]? = some ((BitVec.ofNat 32 (iw.toNat % 2 ^ (8 * iw.length))).extractLsb' (8 * k) 8) := by
  cases iw with
  | half p =>
    have hword : BitVec.ofNat 32 (p.toNat % 2 ^ 16) = p.setWidth 32 := by
      rw [Nat.mod_eq_of_lt p.isLt, BitVec.ofNat_toNat]
    have hk : k < 2 := hk
    have hslice : (p.setWidth 32).extractLsb' (8 * k) 8 = p.extractLsb' (8 * k) 8 :=
      BitVec.extractLsb'_setWidth_of_le (by omega)
    simp only [InstrWord.bytes, InstrWord.toNat, InstrWord.length, hword, hslice]
    interval_cases k <;> rfl
  | full w =>
    have hword : BitVec.ofNat 32 (w.toNat % 2 ^ 32) = w := by
      rw [Nat.mod_eq_of_lt w.isLt, BitVec.ofNat_toNat, BitVec.setWidth_eq]
    have hk : k < 4 := hk
    simp only [InstrWord.bytes, InstrWord.toNat, InstrWord.length, hword]
    interval_cases k <;> rfl

theorem instrWord_length_le_four (iw : InstrWord) : iw.length ≤ 4 := by
  cases iw <;> simp [InstrWord.length]

/-- Placed where the next step fetches, a word stands there. -/
theorem standing_placeAtPc {cfg : Config} {h : Hart cfg.xlen.bits} {iw : InstrWord} (hwf : h.mem.wf)
    (hnone : h.fault = none) (haligned : h.pc.toNat % cfg.ialignBytes = 0) (htext : cfg.Inside (some .text) h.pc.toNat 2)
    (htext' : iw.length = 4 → cfg.Inside (some .text) (h.pc + BitVec.ofNat _ 2).toNat 2) (hlen : iw.lengthOk = true) :
    Standing cfg (placeAtPc h (8 * iw.length) iw.toNat) iw := by
  refine ⟨hnone, haligned, hlen, fun k hk => ?_, htext, htext'⟩
  have hk4 : k < 4 := hk.trans_le (instrWord_length_le_four iw)
  rw [bytes_getElem_eq_slice iw hk, ← Memory.byte_write h.pc _ 4 k hwf hk4 (four_le_two_pow_bits cfg.xlen)]
  rfl

/-- Settles O49: the placed word stands at the pc, and a store changes its own four bytes only. -/
theorem placedWordRunsNext : Obligations.PlacedWordRunsNext := by
  intro cfg h iw i hwf hnone haligned htext htext' hi
  obtain ⟨-, henc⟩ := wellFormed_encode_of_decodeWord hi
  have hlen : iw.lengthOk = true := henc ▸ lengthOk_encode i
  have hs := standing_placeAtPc hwf hnone haligned htext htext' hlen
  exact ⟨_, rfl, step_of_standing_decoded hs hi, fun _ => rfl, rfl, rfl,
    fun a ha => Memory.byte_write_ne h.pc _ 4 a hwf ha⟩

end Sys2Proof.Machine

/-! ### Parcels and words as numbers (R21, R29) -/

namespace Sys2Proof

theorem toNat_parcelOf (b0 b1 : Byte) : (parcelOf b0 b1).toNat = b0.toNat + 256 * b1.toNat := by
  have hlow := toNat_place (k := 16) b0 (lo := 0) (by omega)
  rw [parcelOf, toNat_or_place hlow (by omega) (by omega)]
  omega

theorem toNat_wordOf (p0 p1 : BitVec 16) : (wordOf p0 p1).toNat = p0.toNat + 2 ^ 16 * p1.toNat := by
  have hlow := toNat_place (k := 32) p0 (lo := 0) (by omega)
  rw [wordOf, toNat_or_place hlow (by omega) (by omega)]
  omega

/-- The length rule on the parcel's number (R29). -/
theorem isHalf_iff (p : BitVec 16) : isHalf p = true ↔ p.toNat % 4 ≠ 3 := by
  rw [isHalf, bne_iff_ne, ne_eq, BitVec.toNat_eq, toNat_slice, pow_zero, Nat.div_one]
  rfl

end Sys2Proof

namespace Sys2Proof.Machine

/-! ### The fetch step in the order of its checks (R29, R84) -/

section
variable {cfg : Config} {h : Hart cfg.xlen.bits}

theorem fetch_of_misaligned (ha : h.pc.toNat % cfg.ialignBytes ≠ 0) :
    fetch cfg h = .error (.instructionAddressMisaligned h.pc.toNat h.pc.toNat) := by
  simp [fetch, instrAligned, ha]

variable (ha : h.pc.toNat % cfg.ialignBytes = 0)
include ha

theorem fetch_of_outside (hout : ¬ cfg.Inside (some .text) h.pc.toNat 2) :
    fetch cfg h = .error (.instructionAccessFault h.pc.toNat h.pc.toNat) := by
  simp [fetch, instrAligned, ha, mt (mayFetch_iff _ _ _).1 hout]

variable (hin : cfg.Inside (some .text) h.pc.toNat 2)
include hin

theorem fetch_of_half (hp : (parcelAt h.mem h.pc).toNat % 4 ≠ 3) :
    fetch cfg h = .ok (.half (parcelAt h.mem h.pc)) := by
  simp [fetch, instrAligned, ha, (mayFetch_iff _ _ _).2 hin, (isHalf_iff _).2 hp]

theorem fetch_of_second_outside (hp : (parcelAt h.mem h.pc).toNat % 4 = 3)
    (hout : ¬ cfg.Inside (some .text) (h.pc + 2#_).toNat 2) :
    fetch cfg h = .error (.instructionAccessFault h.pc.toNat h.pc.toNat) := by
  have hfull : ¬ isHalf (parcelAt h.mem h.pc) = true := fun hhalf => (isHalf_iff _).1 hhalf hp
  simp [fetch, instrAligned, ha, (mayFetch_iff _ _ _).2 hin, hfull, mt (mayFetch_iff _ _ _).1 hout, -BitVec.toNat_add]

theorem fetch_of_full (hp : (parcelAt h.mem h.pc).toNat % 4 = 3)
    (hin' : cfg.Inside (some .text) (h.pc + 2#_).toNat 2) :
    fetch cfg h = .ok (.full (wordOf (parcelAt h.mem h.pc) (parcelAt h.mem (h.pc + 2#_)))) := by
  have hfull : ¬ isHalf (parcelAt h.mem h.pc) = true := fun hhalf => (isHalf_iff _).1 hhalf hp
  simp [fetch, instrAligned, ha, (mayFetch_iff _ _ _).2 hin, hfull, (mayFetch_iff _ _ _).2 hin', -BitVec.toNat_add]

end

/-- A parcel as a number, by its two bytes (R21). -/
theorem toNat_parcelAt {w : Nat} (m : Memory) (a : BitVec w) (k : Nat) :
    (parcelAt m (a + BitVec.ofNat w k)).toNat =
      (m.byte (a + BitVec.ofNat w k).toNat).toNat + 256 * (m.byte (a + BitVec.ofNat w (k + 1)).toNat).toNat := by
  rw [parcelAt_eq, toNat_parcelOf, BitVec.add_assoc, ← BitVec.ofNat_add]

/-- Settles O40: one equation of the fetch step for each clause, with parcels and words given as numbers. -/
theorem stepFollowsTheFetchRule : Obligations.StepFollowsTheFetchRule := by
  refine ⟨fun cfg h hnone => ?rule, fun cfg p hC => ⟨_, if_pos hC⟩, fun w hop => ?lowBits⟩
  case lowBits =>
    have hlow (lo m : Nat) (hm : lo + m ≤ 7) : w.extractLsb' lo m = (0b1111011#7).extractLsb' lo m := by
      rw [← hop, BitVec.extractLsb'_extractLsb'_of_le hm]
    exact ⟨hlow 0 2 (by decide), hlow 2 3 (by decide)⟩
  case rule =>
    intro pc b lo full
    have hlo : (parcelAt h.mem h.pc).toNat = lo := by
      have hpc : h.pc + BitVec.ofNat _ 0 = h.pc := by simp
      exact hpc ▸ toNat_parcelAt h.mem h.pc 0
    have hhi : (parcelAt h.mem (h.pc + 2#_)).toNat = (b 2).toNat + 256 * (b 3).toNat := toNat_parcelAt h.mem h.pc 2
    have hhalf : BitVec.ofNat 16 lo = parcelAt h.mem h.pc := by rw [← hlo, BitVec.ofNat_toNat, BitVec.setWidth_eq]
    have hfull : (wordOf (parcelAt h.mem h.pc) (parcelAt h.mem (h.pc + 2#_))).toNat = full := by
      rw [toNat_wordOf, hlo, hhi]
      omega
    have hword : BitVec.ofNat 32 full = wordOf (parcelAt h.mem h.pc) (parcelAt h.mem (h.pc + 2#_)) := by
      rw [← hfull, BitVec.ofNat_toNat, BitVec.setWidth_eq]
    rw [hhalf, hword]
    refine ⟨fun ha => ?misaligned, fun ha hout => ?outside, fun ha hin hlow => ?half, fun ha hin hlow hout => ?second,
      fun ha hin hlow hin' => ?full⟩
    case misaligned => exact step_of_fetch_error hnone (fetch_of_misaligned ha)
    case outside => exact step_of_fetch_error hnone (fetch_of_outside ha hout)
    case half =>
      have hf := fetch_of_half ha hin (hlo ▸ hlow)
      split
      case h_1 i hi => exact step_of_fetch_decoded hnone hf hi
      case h_2 r hr => exact hlo ▸ step_of_fetch_rejected hnone hf hr
    case second => exact step_of_fetch_error hnone (fetch_of_second_outside ha hin (hlo ▸ hlow) hout)
    case full =>
      have hf := fetch_of_full ha hin (hlo ▸ hlow) hin'
      split
      case h_1 i hi => exact step_of_fetch_decoded hnone hf hi
      case h_2 r hr => exact hfull ▸ step_of_fetch_rejected hnone hf hr

end Sys2Proof.Machine

/-! ### The bit-field function inside and outside its window (40_bitfield.md section 4) -/

namespace Sys2Proof.Machine

section
variable {w : Nat} {a b : BitVec w} {start len dest i : Nat}

theorem getLsbD_bfxpValue_of_inside (hi : i < len) (hd : dest + len ≤ w) :
    (bfxpValue a b start len dest).getLsbD (dest + i) = a.getLsbD (start + i) := by
  rw [getLsbD_bfxpValue (by omega), if_pos (by omega), Nat.add_sub_cancel_left, Nat.add_comm]

theorem getLsbD_bfxpValue_of_outside (hi : i < dest ∨ dest + len ≤ i) :
    (bfxpValue a b start len dest).getLsbD i = b.getLsbD i := by
  by_cases hw : i < w
  · rw [getLsbD_bfxpValue hw, if_neg (by omega)]
  · rw [BitVec.getLsbD_of_ge _ _ (not_lt.1 hw), BitVec.getLsbD_of_ge _ _ (not_lt.1 hw)]

/-- The window of the result is the field (law 1). -/
theorem slice_bfxpValue (hd : dest + len ≤ w) :
    (bfxpValue a b start len dest).extractLsb' dest len = a.extractLsb' start len := by
  apply BitVec.eq_of_getLsbD_eq
  intro i hi
  rw [BitVec.getLsbD_extractLsb', BitVec.getLsbD_extractLsb', getLsbD_bfxpValue_of_inside hi hd]

/-- Where the window of `b` is zero, the field is joined to `b` by an OR. -/
theorem bfxpValue_eq_or_place (hb : b.extractLsb' dest len = 0#len) :
    bfxpValue a b start len dest = b ||| place w (a.extractLsb' start len) dest := by
  apply BitVec.eq_of_getLsbD_eq
  intro i hi
  rw [BitVec.getLsbD_or, getLsbD_place, BitVec.getLsbD_extractLsb', getLsbD_bfxpValue hi]
  by_cases hwindow : dest ≤ i ∧ i < dest + len
  · have hclear : b.getLsbD i = false := by
      have := getLsbD_of_slice hb (i := i - dest) (by omega)
      rwa [Nat.add_sub_cancel' hwindow.1, BitVec.getLsbD_zero] at this
    rw [if_pos hwindow, hclear, Nat.add_comm]
    simp [hi, hwindow.1, show i - dest < len by omega]
  · rw [if_neg hwindow]
    by_cases hlow : dest ≤ i
    · simp [show ¬ i - dest < len by omega]
    · simp [hlow]

/-- Placing twice is placing once (law 6). -/
theorem bfxpValue_bfxpValue : bfxpValue a (bfxpValue a b start len dest) start len dest = bfxpValue a b start len dest := by
  apply BitVec.eq_of_getLsbD_eq
  intro i hi
  rw [getLsbD_bfxpValue hi, getLsbD_bfxpValue hi]
  split <;> rfl

/-- Complementing the first source flips the window and nothing else (law 7). -/
theorem bfxpValue_not (hs : start + len ≤ w) :
    bfxpValue (~~~ a) b start len dest = bfxpValue a b start len dest ^^^ (ones w len <<< dest) := by
  apply BitVec.eq_of_getLsbD_eq
  intro i hi
  rw [BitVec.getLsbD_xor, getLsbD_bfxpValue_not hs hi, getLsbD_bfxpValue hi, BitVec.getLsbD_shiftLeft, getLsbD_ones]
  by_cases hlow : dest ≤ i
  · by_cases hhigh : i < dest + len
    · simp [hi, hlow, hhigh, show ¬ i < dest by omega, show i - dest < w by omega, show i - dest < len by omega]
    · simp [hhigh, show ¬ i - dest < len by omega]
  · simp [hlow, show i < dest by omega]

/-- A field taken out by two logical shifts (law 3). -/
theorem shiftLeft_ushiftRight_eq_slice (hs : start + len ≤ w) :
    (a <<< (w - start - len)) >>> (w - len) = (a.extractLsb' start len).setWidth w := by
  apply BitVec.eq_of_getLsbD_eq
  intro i hi
  rw [BitVec.getLsbD_ushiftRight, BitVec.getLsbD_shiftLeft, BitVec.getLsbD_setWidth, BitVec.getLsbD_extractLsb']
  by_cases hlen : i < len
  · simp [hi, hlen, show w - len + i < w by omega, show ¬ w - len + i < w - start - len by omega,
      show w - len + i - (w - start - len) = start + i by omega]
  · simp [hlen, show ¬ w - len + i < w by omega]

end

/-- Settles O13: two shifts take the field out, the third puts it in place, and the OR joins it to the zero window. -/
theorem shiftFormWhenWindowIsZero : Obligations.ShiftFormWhenWindowIsZero := by
  intro x a b s l d _ hs _ hzero
  have hb : b.extractLsb' d l = 0#l := by
    apply BitVec.eq_of_getLsbD_eq
    intro i hi
    rw [BitVec.getLsbD_extractLsb', hzero (d + i) (by omega) (by omega), decide_eq_true hi, BitVec.getLsbD_zero,
      Bool.and_false]
  rw [bfxpValue_eq_or_place hb, shiftLeft_ushiftRight_eq_slice hs, BitVec.or_comm, place]

/-- Settles O14, each law by its own lemma; plain insertion is the window and the rest of the result for `start` 0. -/
theorem extractInsertAndComplementLaws : Obligations.ExtractInsertAndComplementLaws := by
  intro x a b s l d _ hs hd
  refine ⟨slice_bfxpValue hd, ?extract, ⟨?inserted, fun i hi => getLsbD_bfxpValue_of_outside hi⟩, bfxpValue_bfxpValue,
    bfxpValue_not hs⟩
  case extract =>
    have hzero : (0 : BitVec x.bits).extractLsb' 0 l = 0#l := BitVec.extractLsb'_zero
    rw [bfxpValue_eq_or_place hzero, place, BitVec.shiftLeft_zero]
    exact BitVec.zero_or
  case inserted => rw [slice_bfxpValue hd, BitVec.setWidth_eq_extractLsb' (by omega)]

/-- Settles O15: each bit lies in one window at most, and takes its value from that placement alone. -/
theorem disjointPlacementsCommute : Obligations.DisjointPlacementsCommute := by
  intro x a1 a2 b s1 l1 d1 s2 l2 d2 _ _ hd1 _ _ hd2 hdisjoint
  apply BitVec.eq_of_getLsbD_eq
  intro i hi
  by_cases h1 : d1 ≤ i ∧ i < d1 + l1
  · rw [getLsbD_bfxpValue_of_outside (dest := d2) (by omega), getLsbD_bfxpValue hi, getLsbD_bfxpValue hi, if_pos h1,
      if_pos h1]
  · have hout : i < d1 ∨ d1 + l1 ≤ i := by omega
    rw [getLsbD_bfxpValue_of_outside (a := a1) hout, getLsbD_bfxpValue hi, getLsbD_bfxpValue_of_outside hout,
      getLsbD_bfxpValue hi]

/-- Settles O16: a window below bit 32 holds the same field at both widths, and the bits above it are those of `b`. -/
theorem lowHalfAgreesAcrossXlen : Obligations.LowHalfAgreesAcrossXlen := by
  intro a b s l d _ hs hd
  refine ⟨BitVec.eq_of_getLsbD_eq fun i hi => ?low, BitVec.eq_of_getLsbD_eq fun i hi => ?high⟩
  case low =>
    rw [BitVec.getLsbD_setWidth, getLsbD_bfxpValue (by omega), getLsbD_bfxpValue hi]
    split
    case isTrue hwindow => simp [hi, show i - d + s < 32 by omega]
    case isFalse => simp [hi]
  case high =>
    rw [BitVec.getLsbD_extractLsb', BitVec.getLsbD_extractLsb', getLsbD_bfxpValue_of_outside (by omega)]

/-! ### The registers that bfxp and bfxpc read and write (R11, R54, R55) -/

section
variable {w : Nat} {g h : Hart w}

theorem bfSecond_congr {rd : CReg} (hrd : g.readReg rd.toReg = h.readReg rd.toReg) (rs2 : Src2) :
    bfSecond g rd rs2 = bfSecond h rd rs2 := by
  cases rs2
  · rfl
  · exact hrd

/-- The same value written to the same register of x8 to x15 keeps two harts alike there, and the other registers as they
were. -/
theorem agree_writeReg_advance (hpc : g.pc = h.pc) (hagree : ∀ c : CReg, g.readReg c.toReg = h.readReg c.toReg)
    (rd : CReg) (v : BitVec w) (n : Nat) :
    ((g.writeReg rd.toReg v).advance n).pc = ((h.writeReg rd.toReg v).advance n).pc ∧
    (∀ c : CReg, ((g.writeReg rd.toReg v).advance n).readReg c.toReg = ((h.writeReg rd.toReg v).advance n).readReg c.toReg) ∧
    ∀ r : Reg, r.val < 8 ∨ 15 < r.val → ((g.writeReg rd.toReg v).advance n).readReg r = g.readReg r ∧
      ((h.writeReg rd.toReg v).advance n).readReg r = h.readReg r := by
  refine ⟨by simp [hpc], fun c => ?inside, fun r hr => ?outside⟩
  case inside => simp [Hart.readReg_writeReg, hagree c]
  case outside =>
    have hne : r ≠ rd.toReg := by
      rintro rfl
      simp only [CReg.toReg] at hr
      omega
    simp [Hart.readReg_writeReg_ne _ v hne]

end

/-- Settles O19: both instructions write one value, a function of registers x8 to x15, to one of them. -/
theorem bfInstructionsStayInX8ToX15 : Obligations.BfInstructionsStayInX8ToX15 := by
  intro cfg g h rd rs1 rs2 start len dest i hi hpc hagree
  have hfirst := hagree rs1
  have hsecond := bfSecond_congr (hagree rd) rs2
  obtain rfl | rfl := hi
  · refine ⟨_, _, exec_bfxp g .., exec_bfxp h .., ?_⟩
    rw [hfirst, hsecond]
    exact agree_writeReg_advance hpc hagree rd _ 4
  · refine ⟨_, _, exec_bfxpc g .., exec_bfxpc h .., ?_⟩
    rw [hfirst, hsecond]
    exact agree_writeReg_advance hpc hagree rd _ 4

/-- Settles O20: the value written is the function of the old register in both places. -/
theorem oneRegisterCopiesItsOwnField : Obligations.OneRegisterCopiesItsOwnField := by
  refine ⟨fun cfg h r start len dest hlegal => ⟨_, exec_bfxp h .., ?_⟩, by decide⟩
  obtain ⟨-, -, hdest⟩ := hlegal
  rw [Hart.advance_readReg, Hart.readReg_writeReg_self_of_ne_zero _ _ (CReg.toReg_ne_zero r), bfSecond]
  exact ⟨fun i hi => getLsbD_bfxpValue_of_inside hi hdest, fun i hi => getLsbD_bfxpValue_of_outside hi⟩

end Sys2Proof.Machine

/-! ### The decoder of custom-3: the words between the two widths (30_encoding.md sections 4 and 5) -/

namespace Sys2Proof

/-- Operands legal on RV32 are legal on RV64. -/
theorem Xlen.BfLegal.rv64 {start len dest : Nat} (h : Xlen.rv32.BfLegal start len dest) :
    Xlen.rv64.BfLegal start len dest := by
  simp only [Xlen.BfLegal, Xlen.maxLen, Xlen.bits] at *
  omega

/-- Settles O9: the fields of a word do not depend on the width, and legal operands stay legal. -/
theorem rv32BfWordsMeanTheSameOnRv64 : Obligations.Rv32BfWordsMeanTheSameOnRv64 := by
  refine ⟨fun w i hop hi => ?_, ⟨.bfxp 0 0 .zero 0 32 0, by decide⟩, ⟨.lenFieldZero, by decide⟩⟩
  rw [decode32_of_custom3 hop] at hi ⊢
  obtain ⟨hlegal, hinstr⟩ := decodeCustom3_ok_iff.1 hi
  exact decodeCustom3_ok_iff.2 ⟨hlegal.rv64, hinstr⟩

/-- A custom-3 word decodes exactly when it is not reserved. -/
theorem decodeCustom3_isOk_iff {x : Xlen} {w : BitVec 32} : (∃ i, decodeCustom3 x w = .ok i) ↔ BfLegalWord x w := by
  simp only [decodeCustom3_ok_iff, exists_and_left, exists_eq, and_true]

section
variable {w : BitVec 32}

/-- Bits 31:24 are the low halves of `start` and of the len field. -/
theorem toNat_slice_24_8 (w : BitVec 32) :
    (w.extractLsb' 24 8).toNat = (w.extractLsb' 28 4).toNat * 16 + (w.extractLsb' 24 4).toNat := by
  simp only [toNat_slice]
  omega

/-- Bit 12 adds 16 to the len field, so that it is not 0 (R33). -/
theorem lenOf_of_bit12 (h : (w.extractLsb' 12 1).toNat = 1) :
    lenOf (bfLenField w) = 16 + (w.extractLsb' 24 4).toNat := by
  rw [lenOf_eq_ite, toNat_bfLenField_slices, h, if_neg (by omega)]

/-- With bits 13:12 set, `start` and the length are at least 16 each, and bits 31:24 add to them. -/
theorem start_add_len_of_bits_13_12 (h : w.extractLsb' 12 2 = 0b11#2) (h0 : w.extractLsb' 24 8 ≠ 0#8) :
    32 < (bfStart w).toNat + lenOf (bfLenField w) := by
  rw [ne_eq, BitVec.toNat_eq, toNat_slice_24_8, BitVec.toNat_ofNat] at h0
  rw [BitVec.toNat_eq, toNat_slice, BitVec.toNat_ofNat] at h
  have h12 : (w.extractLsb' 12 1).toNat = 1 := by rw [toNat_slice]; omega
  have h13 : (w.extractLsb' 13 2).toNat % 2 = 1 := by rw [toNat_slice]; omega
  rw [lenOf_of_bit12 h12, toNat_bfStart_slices]
  omega

/-- With bits 14:12 set, `start` is at least 48 and the length at least 16. -/
theorem start_len_of_bits_14_12 (h : w.extractLsb' 12 3 = 0b111#3) :
    (bfStart w).toNat = 48 + (w.extractLsb' 28 4).toNat ∧
    lenOf (bfLenField w) = 16 + (w.extractLsb' 24 4).toNat := by
  rw [BitVec.toNat_eq, toNat_slice, BitVec.toNat_ofNat] at h
  have h12 : (w.extractLsb' 12 1).toNat = 1 := by rw [toNat_slice]; omega
  have h13 : (w.extractLsb' 13 2).toNat = 3 := by rw [toNat_slice]; omega
  exact ⟨by rw [toNat_bfStart_slices, h13], lenOf_of_bit12 h12⟩

end

/-- Settles O8: bits 14:12 make `start + len` at least 64, and bits 31:24 take it past; the RV32 part has the like for 32. -/
theorem funct3AllOnesCorner : Obligations.Funct3AllOnesCorner := by
  intro w hop
  simp only [decode32_of_custom3 hop, decodeCustom3_error_iff, decodeCustom3_isOk_iff]
  refine ⟨fun hf3 h0 => ?past64, fun hf3 h0 => ?corner, fun h14 => ?bit14, fun hf2 h0 => ?past32⟩
  case past64 =>
    obtain ⟨hstart, hlen⟩ := start_len_of_bits_14_12 hf3
    rw [ne_eq, BitVec.toNat_eq, toNat_slice_24_8, BitVec.toNat_ofNat] at h0
    rw [not_bfLegalWord_iff, hstart, hlen, Xlen.bits]
    omega
  case corner =>
    obtain ⟨hstart, hlen⟩ := start_len_of_bits_14_12 hf3
    rw [BitVec.toNat_eq, toNat_slice_24_8, BitVec.toNat_ofNat] at h0
    rw [BfLegalWord, Xlen.BfLegal, hstart, hlen, bfDest, Xlen.bits, Xlen.maxLen]
    omega
  case bit14 =>
    rw [← decodeCustom3_error_iff, ← decode32_of_custom3 hop]
    exact rv32HighImmediateBitsReserved w hop (.inl h14)
  case past32 => exact not_bfLegalWord_iff.2 (.inr (.inl (start_add_len_of_bits_13_12 hf2 h0)))

/-! ### The assembler (R36, R37, R45) -/

theorem cregOfReg_eq_some_iff {r : Reg} {c : CReg} : cregOfReg r = some c ↔ r = c.toReg := by
  unfold cregOfReg
  constructor
  · intro h
    split at h <;> cases h
    apply Fin.ext
    simp only [CReg.toReg]
    omega
  · rintro rfl
    simp [CReg.toReg]
    omega

theorem cregOfReg_isSome_iff (r : Reg) : (∃ c, cregOfReg r = some c) ↔ 8 ≤ r.val ∧ r.val ≤ 15 := by
  unfold cregOfReg
  split <;> simp [*]

theorem src2OfReg_isSome_iff (rd rs2 : Reg) : (∃ t, src2OfReg rd rs2 = some t) ↔ rs2 = 0 ∨ rs2 = rd := by
  unfold src2OfReg
  split_ifs <;> simp [*]

/-- The selector bit of the second source: an `rd` of the BF format is not x0, so the two sources differ (R36, R37). -/
theorem toNat_src2Bits_of_src2OfReg {c : CReg} {rs2 : Reg} {t : Src2} (h : src2OfReg c.toReg rs2 = some t) :
    (src2Bits t).toNat = if rs2 = c.toReg then 1 else 0 := by
  unfold src2OfReg at h
  split at h
  case isTrue h0 =>
    cases h
    rw [if_neg (fun heq => Machine.CReg.toReg_ne_zero c (heq.symm.trans h0))]
    rfl
  case isFalse =>
    split at h <;> cases h
    rw [if_pos ‹_›]
    rfl

theorem assembleBf_eq_some_iff {x : Xlen} {comp : Bool} {rd rs1 rs2 : Reg} {start len dest : Nat} {i : Instr} :
    assembleBf x comp rd rs1 rs2 start len dest = some i ↔
      ∃ d a t, cregOfReg rd = some d ∧ cregOfReg rs1 = some a ∧ src2OfReg rd rs2 = some t ∧ x.BfLegal start len dest ∧
        i = if comp then .bfxpc d a t start len dest else .bfxp d a t start len dest := by
  unfold assembleBf
  constructor
  · intro h
    split at h
    case h_1 d a t hd ha ht =>
      split at h <;> cases h
      exact ⟨d, a, t, hd, ha, ht, ‹_›, rfl⟩
    case h_2 => cases h
  · rintro ⟨d, a, t, hd, ha, ht, hlegal, rfl⟩
    simp only [hd, ha, ht, if_pos hlegal]

/-- The word of the BF format as the sum of its fields (R45). -/
theorem toNat_encodeBf (comp : BitVec 1) (rd rs1 : CReg) (rs2 : Src2) (len : Nat) {start dest : Nat}
    (hstart : start < 2 ^ 6) (hdest : dest < 2 ^ 6) :
    (encodeBf comp rd rs1 rs2 start len dest).toNat =
      0x7B + rd.val * 2 ^ 7 + (src2Bits rs2).toNat * 2 ^ 10 + comp.toNat * 2 ^ 11 + len % 32 / 16 * 2 ^ 12 +
        start / 16 * 2 ^ 13 + rs1.val * 2 ^ 15 + dest * 2 ^ 18 + len % 16 * 2 ^ 24 + start % 16 * 2 ^ 28 := by
  have hreg (r : CReg) : (cregBits r).toNat = r.val := toNat_ofNat_of_lt r.isLt
  have h1 := toNat_place (k := 32) 0b1111011#7 (lo := 0) (by omega)
  have h2 := toNat_or_place (v := cregBits rd) (lo := 7) h1 (by decide) (by omega)
  have h3 := toNat_or_place (v := src2Bits rs2) (lo := 10) h2 (by omega) (by omega)
  have h4 := toNat_or_place (v := comp) (lo := 11) h3 (by omega) (by omega)
  have h5 := toNat_or_place (v := (BitVec.ofNat 5 len).extractLsb' 4 1) (lo := 12) h4 (by omega) (by omega)
  have h6 := toNat_or_place (v := (BitVec.ofNat 6 start).extractLsb' 4 2) (lo := 13) h5 (by omega) (by omega)
  have h7 := toNat_or_place (v := cregBits rs1) (lo := 15) h6 (by omega) (by omega)
  have h8 := toNat_or_place (v := BitVec.ofNat 6 dest) (lo := 18) h7 (by omega) (by omega)
  have h9 := toNat_or_place (v := (BitVec.ofNat 5 len).extractLsb' 0 4) (lo := 24) h8 (by omega) (by omega)
  have h10 := toNat_or_place (v := (BitVec.ofNat 6 start).extractLsb' 0 4) (lo := 28) h9 (by omega) (by omega)
  rw [encodeBf, h10, hreg, hreg]
  simp only [toNat_slice, BitVec.toNat_ofNat, Nat.mod_eq_of_lt hstart, Nat.mod_eq_of_lt hdest]
  omega

/-- Settles O11: the three operand fields exist under the listed conditions, and the word is the sum of the fields placed. -/
theorem assemblesExactlyWhenEncodable : Obligations.AssemblesExactlyWhenEncodable := by
  intro x comp rd rs1 rs2 start len dest
  refine ⟨?encodable, fun i hi => ?word⟩
  case encodable =>
    have hmax : x.maxLen = if x = .rv32 then 31 else 32 := by cases x <;> rfl
    rw [← hmax, ← cregOfReg_isSome_iff, ← cregOfReg_isSome_iff, ← src2OfReg_isSome_iff, Option.isSome_iff_exists]
    simp only [assembleBf_eq_some_iff]
    constructor
    · rintro ⟨_, d, a, t, hd, ha, ht, ⟨⟨hpos, hle⟩, hstart, hdest⟩, -⟩
      exact ⟨⟨d, hd⟩, ⟨a, ha⟩, ⟨t, ht⟩, hpos, hle, hstart, hdest⟩
    · rintro ⟨⟨d, hd⟩, ⟨a, ha⟩, ⟨t, ht⟩, hpos, hle, hstart, hdest⟩
      exact ⟨_, d, a, t, hd, ha, ht, ⟨⟨hpos, hle⟩, hstart, hdest⟩, rfl⟩
  case word =>
    obtain ⟨d, a, t, hd, ha, ht, hlegal, rfl⟩ := assembleBf_eq_some_iff.1 hi
    obtain rfl := cregOfReg_eq_some_iff.1 hd
    obtain rfl := cregOfReg_eq_some_iff.1 ha
    obtain ⟨hstart, -, hdest⟩ := hlegal.lt
    rw [← toNat_src2Bits_of_src2OfReg ht]
    have hreg (c : CReg) : c.toReg.val - 8 = c.val := Nat.add_sub_cancel_left ..
    rw [hreg, hreg]
    cases comp
    · exact ⟨_, rfl, decode32_encodeBf hlegal 0#1 d a t, toNat_encodeBf 0#1 d a t len hstart hdest⟩
    · exact ⟨_, rfl, decode32_encodeBf hlegal 1#1 d a t, toNat_encodeBf 1#1 d a t len hstart hdest⟩

/-! ### The immediate settings, counted (30_encoding.md section 5) -/

/-- The settings with which a field of `len` bits stays below bit `n` are the numbers up to `n - len`. -/
def fitsEquiv {n len : Nat} (hpos : 1 ≤ len) (hn : n ≤ 64) : {s : Fin 64 // s.val + len ≤ n} ≃ Fin (n + 1 - len) where
  toFun := fun ⟨s, hs⟩ => ⟨s.val, by omega⟩
  invFun := fun s => ⟨⟨s.val, by omega⟩, by simp only; omega⟩
  left_inv _ := rfl
  right_inv _ := rfl

theorem card_fits {n len : Nat} (hpos : 1 ≤ len) (hn : n ≤ 64) :
    Nat.card {s : Fin 64 // s.val + len ≤ n} = n + 1 - len := by
  rw [Nat.card_congr (fitsEquiv hpos hn), Nat.card_fin]

/-- Legal settings, length by length: `start` and `dest` are free of each other. -/
def legalSettingsEquiv (x : Xlen) :
    {p : Fin 64 × Fin 32 × Fin 64 // x.BfLegal p.1 (lenOf (BitVec.ofFin p.2.1)) p.2.2} ≃
      Σ l : {l : Fin 32 // lenOf (BitVec.ofFin l) ≤ x.maxLen},
        {s : Fin 64 // s.val + lenOf (BitVec.ofFin l.1) ≤ x.bits} ×
        {d : Fin 64 // d.val + lenOf (BitVec.ofFin l.1) ≤ x.bits} where
  toFun := fun ⟨(s, l, d), ⟨_, hlen⟩, hs, hd⟩ => ⟨⟨l, hlen⟩, ⟨s, hs⟩, ⟨d, hd⟩⟩
  invFun := fun ⟨⟨l, hlen⟩, ⟨s, hs⟩, ⟨d, hd⟩⟩ => ⟨(s, l, d), ⟨(lenOf_bounds (BitVec.ofFin l)).1, hlen⟩, hs, hd⟩
  left_inv := fun ⟨(_, _, _), ⟨_, _⟩, _, _⟩ => rfl
  right_inv _ := rfl

theorem card_legalSettings (x : Xlen) :
    Nat.card {p : Fin 64 × Fin 32 × Fin 64 // x.BfLegal p.1 (lenOf (BitVec.ofFin p.2.1)) p.2.2} =
      ∑ l : {l : Fin 32 // lenOf (BitVec.ofFin l) ≤ x.maxLen}, (x.bits + 1 - lenOf (BitVec.ofFin l.1)) ^ 2 := by
  rw [Nat.card_congr (legalSettingsEquiv x), Nat.card_sigma]
  refine Finset.sum_congr rfl fun l _ => ?_
  obtain ⟨hpos, -⟩ := lenOf_bounds (BitVec.ofFin l.1)
  rw [Nat.card_prod, card_fits hpos x.bits_le, sq]

/-- The word of a setting with the register fields and bits 10 and 11 zero. -/
def settingWord (s l d : Nat) : BitVec 32 :=
  BitVec.ofNat 32 (0x7B + l / 16 * 2 ^ 12 + s / 16 * 2 ^ 13 + d * 2 ^ 18 + l % 16 * 2 ^ 24 + s % 16 * 2 ^ 28)

/-- The word is the BF encoding of its settings, whatever the setting. -/
theorem settingWord_eq_encodeBf {s l d : Nat} (hs : s < 64) (hl : l < 32) (hd : d < 64) :
    settingWord s l d = encodeBf 0#1 0 0 .zero s l d := by
  apply BitVec.eq_of_toNat_eq
  rw [toNat_encodeBf _ _ _ _ _ hs hd, settingWord, toNat_ofNat_of_lt (by omega), Nat.mod_eq_of_lt hl]
  simp [src2Bits]

theorem decode32_settingWord_iff (x : Xlen) (p : Fin 64 × Fin 32 × Fin 64) :
    (∃ i, decode32 x (settingWord p.1 p.2.1 p.2.2) = .ok i) ↔ x.BfLegal p.1 (lenOf (BitVec.ofFin p.2.1)) p.2.2 := by
  obtain ⟨s, l, d⟩ := p
  obtain ⟨hop, -⟩ := encodeBf_slices 0#1 0 0 .zero s l d
  have hlenf : BitVec.ofNat 5 l = BitVec.ofFin l := BitVec.eq_of_toNat_eq (toNat_ofNat_of_lt l.isLt)
  rw [settingWord_eq_encodeBf s.isLt l.isLt d.isLt, decode32_of_custom3 hop, decodeCustom3_isOk_iff, BfLegalWord,
    bfStart_encodeBf, bfLenField_encodeBf, bfDest_encodeBf, toNat_ofNat_of_lt s.isLt, hlenf, toNat_ofNat_of_lt d.isLt]

/-- Settles O10: for each length, the settings of `start` and of `dest` that fit are counted apart. -/
theorem legalImmediateSettingsCounted : Obligations.LegalImmediateSettingsCounted := by
  have hcount (x : Xlen) := (Nat.card_congr (Equiv.subtypeEquivRight (decode32_settingWord_iff x))).trans
    (card_legalSettings x)
  exact ⟨(hcount .rv32).trans (by decide), (hcount .rv64).trans (by decide)⟩


end Sys2Proof

/-! ### The rows of the opcode table: they exclude each other, and a decoded word meets its own -/

namespace Sys2Proof

section
variable {n : Nat}

/-- No word belongs to both rows: their patterns differ in a bit that both masks cover. -/
abbrev TableRow.Excludes (r q : TableRow n) : Prop := r.pattern &&& q.mask ≠ q.pattern &&& r.mask

theorem TableRow.Excludes.not_both {r q : TableRow n} (h : r.Excludes q) {w : BitVec n} (hr : w &&& r.mask = r.pattern) :
    w &&& q.mask ≠ q.pattern := by
  intro hq
  apply h
  rw [← hr, ← hq, BitVec.and_assoc, BitVec.and_assoc, BitVec.and_comm r.mask]

/-- In a table whose rows exclude each other, the row that a word meets is the only one. -/
theorem filter_table_eq_singleton {table : List (TableRow n)} (hexcl : table.Pairwise TableRow.Excludes) {w : BitVec n}
    {r : TableRow n} (hr : r ∈ table) (hw : w &&& r.mask = r.pattern) :
    (table.filter fun q => w &&& q.mask == q.pattern) = [r] := by
  induction table with
  | nil => cases hr
  | cons q table ih =>
    obtain ⟨hq, htable⟩ := List.pairwise_cons.1 hexcl
    obtain rfl | hmem := List.mem_cons.1 hr
    · have hrest : (table.filter fun q => w &&& q.mask == q.pattern) = [] :=
        List.filter_eq_nil_iff.2 fun q' hq' => by simpa using (hq q' hq').not_both hw
      rw [List.filter_cons_of_pos (by simpa using hw), hrest]
    · have hne : w &&& q.mask ≠ q.pattern := fun hmeets => (hq r hmem).not_both hmeets hw
      rw [List.filter_cons_of_neg (by simpa using hne), ih htable hmem]

/-- The row's pattern has bits under its mask only, and its mask lies in the given slices. -/
abbrev TableRow.CoveredBy (r : TableRow n) (slices : List (Nat × Nat)) : Prop :=
  r.pattern &&& r.mask = r.pattern ∧ ∀ i < n, r.mask.getLsbD i = true → ∃ s ∈ slices, s.1 ≤ i ∧ i < s.1 + s.2

/-- A word that has the pattern's bits in every slice that covers the mask meets the row. -/
theorem TableRow.CoveredBy.masked {r : TableRow n} {slices : List (Nat × Nat)} (hr : r.CoveredBy slices) {w : BitVec n}
    (h : ∀ s ∈ slices, w.extractLsb' s.1 s.2 = r.pattern.extractLsb' s.1 s.2) : w &&& r.mask = r.pattern := by
  obtain ⟨hpat, hmask⟩ := hr
  apply BitVec.eq_of_getLsbD_eq
  intro i hi
  rw [← hpat, BitVec.getLsbD_and, BitVec.getLsbD_and]
  cases hbit : r.mask.getLsbD i with
  | false => simp
  | true =>
    obtain ⟨s, hs, hlo, hhi⟩ := hmask i hi hbit
    have hslice := getLsbD_of_slice (h s hs) (i := i - s.1) (by omega)
    rw [BitVec.getLsbD_extractLsb', Nat.add_sub_cancel' hlo] at hslice
    rw [hslice, decide_eq_true (show i - s.1 < s.2 by omega), Bool.true_and]

end

theorem rowsOf_full {w : BitVec 32} (r : TableRow 32) (slices : List (Nat × Nat)) (hr : r ∈ table32)
    (hcover : r.CoveredBy slices) (h : ∀ s ∈ slices, w.extractLsb' s.1 s.2 = r.pattern.extractLsb' s.1 s.2) :
    rowsOf (.full w) = [r.mnemonic] := by
  rw [rowsOf, filter_table_eq_singleton (by decide) hr (hcover.masked h), List.map_singleton]

theorem rowsOf_half {p : BitVec 16} (r : TableRow 16) (slices : List (Nat × Nat)) (hr : r ∈ table16)
    (hcover : r.CoveredBy slices) (h : ∀ s ∈ slices, p.extractLsb' s.1 s.2 = r.pattern.extractLsb' s.1 s.2) :
    rowsOf (.half p) = [r.mnemonic] := by
  rw [rowsOf, filter_table_eq_singleton (by decide) hr (hcover.masked h), List.map_singleton]

section
variable {w : BitVec 32}

theorem rowsOf_bfInstr (hop : w.extractLsb' 0 7 = 0b1111011#7) : rowsOf (.full w) = [(bfInstr w).mnemonic] := by
  unfold bfInstr
  split
  case isTrue hcomp =>
    exact rowsOf_full ⟨"bfxp", 0x0000087F, 0x0000007B⟩ [(0, 7), (11, 1)] (by decide) (by decide) (by simp [hop, hcomp])
  case isFalse hcomp =>
    have hcomp' : w.extractLsb' 11 1 = 1#1 := (BitVec.eq_zero_or_eq_one _).resolve_left hcomp
    exact rowsOf_full ⟨"bfxpc", 0x0000087F, 0x0000087B⟩ [(0, 7), (11, 1)] (by decide) (by decide)
      (by simp [hop, hcomp'])

theorem rowsOf_of_decodeOpImm {x : Xlen} {i : Instr} (hop : w.extractLsb' 0 7 = 0b0010011#7) (h : decodeOpImm x w = .ok i) :
    rowsOf (.full w) = [i.mnemonic] := by
  obtain ⟨hf3, rfl⟩ | ⟨f, hf, -, rfl⟩ := decodeOpImm_ok_cases h
  · exact rowsOf_full ⟨"addi", 0x0000707F, 0x00000013⟩ [(0, 7), (12, 3)] (by decide) (by decide)
      (by simp [hop, hf3])
  · simp only [shiftRows, List.mem_cons, Prod.mk.injEq, List.not_mem_nil, or_false] at hf
    obtain ⟨rfl, hf3, hf6⟩ | ⟨rfl, hf3, hf6⟩ | ⟨rfl, hf3, hf6⟩ := hf
    · exact rowsOf_full ⟨"slli", 0xFC00707F, 0x00001013⟩ [(0, 7), (12, 3), (26, 6)] (by decide) (by decide)
        (by simp [hop, hf3, hf6])
    · exact rowsOf_full ⟨"srli", 0xFC00707F, 0x00005013⟩ [(0, 7), (12, 3), (26, 6)] (by decide) (by decide)
        (by simp [hop, hf3, hf6])
    · exact rowsOf_full ⟨"srai", 0xFC00707F, 0x40005013⟩ [(0, 7), (12, 3), (26, 6)] (by decide) (by decide)
        (by simp [hop, hf3, hf6])

theorem rowsOf_of_decode32 {x : Xlen} {i : Instr} (h : decode32 x w = .ok i) : rowsOf (.full w) = [i.mnemonic] := by
  obtain ⟨hop, hbf⟩ | ⟨hop, himm⟩ | ⟨⟨hop, hf3, hf7⟩, rfl⟩ | ⟨⟨hop, hf3⟩, rfl⟩ | ⟨⟨hop, hf3⟩, rfl⟩ | ⟨⟨hop, hf3⟩, rfl⟩ |
    ⟨⟨hop, hf3⟩, rfl⟩ := decode32_ok_cases h
  · obtain ⟨-, rfl⟩ := decodeCustom3_ok_iff.1 hbf
    exact rowsOf_bfInstr hop
  · exact rowsOf_of_decodeOpImm hop himm
  · exact rowsOf_full ⟨"or", 0xFE00707F, 0x00006033⟩ [(0, 7), (12, 3), (25, 7)] (by decide) (by decide)
      (by simp [hop, hf3, hf7])
  · exact rowsOf_full ⟨"lw", 0x0000707F, 0x00002003⟩ [(0, 7), (12, 3)] (by decide) (by decide)
      (by simp [hop, hf3])
  · exact rowsOf_full ⟨"sw", 0x0000707F, 0x00002023⟩ [(0, 7), (12, 3)] (by decide) (by decide)
      (by simp [hop, hf3])
  · exact rowsOf_full ⟨"bne", 0x0000707F, 0x00001063⟩ [(0, 7), (12, 3)] (by decide) (by decide)
      (by simp [hop, hf3])
  · exact rowsOf_full ⟨"jalr", 0x0000707F, 0x00000067⟩ [(0, 7), (12, 3)] (by decide) (by decide)
      (by simp [hop, hf3])

end

theorem rowsOf_of_decode16 {cfg : Config} {p : BitVec 16} {i : Instr} (h : decode16 cfg p = .ok i) :
    rowsOf (.half p) = [i.mnemonic] := by
  obtain ⟨-, ⟨⟨hop, hf3, hf2⟩, -, -, rfl⟩ | ⟨⟨hop, hf4, hrs2⟩, -, rfl⟩⟩ := decode16_ok_cases h
  · exact rowsOf_half ⟨"c.srai", 0xEC03, 0x8401⟩ [(0, 2), (13, 3), (10, 2)] (by decide) (by decide)
      (by simp [hop, hf3, hf2])
  · exact rowsOf_half ⟨"c.jr", 0xF07F, 0x8002⟩ [(0, 2), (12, 4), (2, 5)] (by decide) (by decide)
      (by simp [hop, hf4, hrs2])

/-- Settles O4: the decoder has checked every bit that the row's mask covers, and the rows exclude each other. -/
theorem decodedWordHasOneTableRow : Obligations.DecodedWordHasOneTableRow := by
  intro cfg iw i h
  cases iw with
  | half p => exact rowsOf_of_decode16 h
  | full w => exact rowsOf_of_decode32 h

/-! ### Words that the spec writes out, and the model's own reset state -/

/-- Settles O1: closed words, so the decoder is run on each of them. -/
theorem specWordsDecode : Obligations.SpecWordsDecode := by
  unfold Obligations.SpecWordsDecode
  decide

/-- Settles O38: the three regions, the addresses and the empty memory are checked one by one. -/
theorem resetIsAnAdmittedLaunch : Obligations.ResetIsAnAdmittedLaunch :=
  ⟨by decide, rfl, by decide⟩

end Sys2Proof

/-! ### The source's four routines: each joins the pieces of an immediate above `shamt` zeros (95_test_vectors.md section 1)
The routine and the immediate join the same pieces, in different orders; `grind` closes an equation of ORs up to their order. -/

namespace Sys2Proof

section
variable {m n k : Nat}

theorem place_or (u v : BitVec n) (lo : Nat) : place k (u ||| v) lo = place k u lo ||| place k v lo := by
  simp [place, BitVec.setWidth_or, BitVec.shiftLeft_or_distrib]

/-- A piece of an operand, placed with the operand. -/
theorem place_place (v : BitVec m) {lo lo' : Nat} (h : m + lo ≤ n) :
    place k (place n v lo) lo' = place k v (lo + lo') := by
  apply BitVec.eq_of_getLsbD_eq
  intro i hi
  simp only [Machine.getLsbD_place]
  by_cases hlo : lo + lo' ≤ i
  · by_cases hm : i - lo' - lo < m
    · simp [hi, hlo, show lo' ≤ i by omega, show lo ≤ i - lo' by omega, show i - lo' < n by omega,
        show i - lo' - lo = i - (lo + lo') by omega]
    · simp [BitVec.getLsbD_of_ge v (i - lo' - lo) (by omega), BitVec.getLsbD_of_ge v (i - (lo + lo')) (by omega)]
  · simp [hlo]
    omega

/-- An operand that ends at the top bit is sign-extended by the arithmetic shift that takes it down. -/
theorem sshiftRight_place_of_top (v : BitVec n) {lo : Nat} (hn : 0 < n) (h : n + lo = k) :
    (place k v lo).sshiftRight lo = v.signExtend k := by
  apply BitVec.eq_of_getLsbD_eq
  intro i hi
  rw [Machine.getLsbD_sshiftRight_eq_ite _ _ hi, Machine.getLsbD_place, Machine.getLsbD_place, BitVec.getLsbD_signExtend,
    BitVec.msb_eq_getLsbD_last]
  by_cases hin : i < n
  · simp [hi, hin, show i + lo < k by omega]
  · simp [hi, hin, show ¬ i + lo < k by omega, show k - 1 - lo = n - 1 by omega, show 0 < k by omega,
      show lo ≤ k - 1 by omega]

/-- An operand that ends below the top bit is zero-extended by it. -/
theorem sshiftRight_place_of_below (v : BitVec n) {lo : Nat} (h : n + lo < k) :
    (place k v lo).sshiftRight lo = v.setWidth k := by
  apply BitVec.eq_of_getLsbD_eq
  intro i hi
  rw [Machine.getLsbD_sshiftRight_eq_ite _ _ hi, Machine.getLsbD_place, Machine.getLsbD_place, BitVec.getLsbD_setWidth]
  by_cases hin : i + lo < k
  · simp [hi, hin]
  · simp [hi, hin, BitVec.getLsbD_of_ge v (k - 1 - lo) (by omega), BitVec.getLsbD_of_ge v i (by omega)]

end

end Sys2Proof

namespace Sys2Proof.Machine

section
variable {w : Nat}

/-- The fields of `a` that some statements take out, placed one after the other into `acc`. -/
def placeFields (a acc : BitVec w) (bs : List BfStatement) : BitVec w :=
  bs.foldl (fun b f => bfxpValue a b f.start f.len f.dest) acc

/-- The same fields joined to `acc` by OR. -/
def joinFields (a acc : BitVec w) (bs : List BfStatement) : BitVec w :=
  bs.foldl (fun b f => b ||| place w (a.extractLsb' f.start f.len) f.dest) acc

/-- Fields placed into windows that do not overlap and that are zero before are joined by OR. -/
theorem placeFields_eq_joinFields (a : BitVec w) {acc : BitVec w} {bs : List BfStatement}
    (hdisj : bs.Pairwise fun f g => f.dest + f.len ≤ g.dest ∨ g.dest + g.len ≤ f.dest)
    (hacc : ∀ f ∈ bs, acc.extractLsb' f.dest f.len = 0#f.len) : placeFields a acc bs = joinFields a acc bs := by
  induction bs generalizing acc with
  | nil => rfl
  | cons f bs ih =>
    obtain ⟨hf, hbs⟩ := List.pairwise_cons.1 hdisj
    have hfirst := bfxpValue_eq_or_place (a := a) (start := f.start) (hacc f List.mem_cons_self)
    have hrest : ∀ g ∈ bs, (acc ||| place w (a.extractLsb' f.start f.len) f.dest).extractLsb' g.dest g.len = 0#g.len := by
      intro g hg
      rw [BitVec.extractLsb'_or, hacc g (List.mem_cons_of_mem _ hg), slice_place_of_disjoint _ (hf g hg)]
      exact BitVec.zero_or
    exact (congrArg (placeFields a · bs) hfirst).trans (ih hbs hrest)

/-- Placed into zero, as each routine does. -/
theorem placeFields_zero (a : BitVec w) {bs : List BfStatement}
    (hdisj : bs.Pairwise fun f g => f.dest + f.len ≤ g.dest ∨ g.dest + g.len ≤ f.dest) :
    placeFields a 0 bs = joinFields a 0 bs :=
  placeFields_eq_joinFields a hdisj fun _ _ => BitVec.extractLsb'_zero

variable (h : Hart w)

/-- The shape of a routine's statements: each takes its field from `a0`; the first adds it to register `r`, the others to
`a1`; the last writes `a0` and the others `a1`. -/
def accumulates (r : Reg) : List BfStatement → Bool
  | []      => false
  | [f]     => f.rd = 10 ∧ f.rs1 = 10 ∧ f.rs2 = r
  | f :: bs => f.rd = 11 ∧ f.rs1 = 10 ∧ f.rs2 = r ∧ accumulates 11 bs

/-- Statements of that shape place their fields one after the other into the value that `r` holds at the start. -/
theorem readReg_foldl_evalStatement {r : Reg} {bs : List BfStatement} (hbs : accumulates r bs = true) :
    (bs.foldl evalStatement h).readReg 10 = placeFields (h.readReg 10) (h.readReg r) bs := by
  induction bs generalizing h r with
  | nil => cases hbs
  | cons f bs ih =>
    cases bs with
    | nil =>
      obtain ⟨hrd, hrs1, hrs2⟩ := of_decide_eq_true hbs
      simp [readReg_evalStatement, placeFields, hrd, hrs1, hrs2]
    | cons g bs =>
      obtain ⟨hrd, hrs1, hrs2, hrest⟩ := of_decide_eq_true hbs
      have ha0 : (evalStatement h f).readReg 10 = h.readReg 10 := by simp [readReg_evalStatement, hrd]
      have ha1 : (evalStatement h f).readReg 11 = bfxpValue (h.readReg 10) (h.readReg r) f.start f.len f.dest := by
        simp [readReg_evalStatement, hrd, hrs1, hrs2]
      rw [List.foldl_cons, ih _ hrest, ha0, ha1]
      rfl

/-- What a routine returns, where its statements place disjoint fields of `a0` that make up `imm` above `shamt` zeros. -/
theorem Routine.result_eq {r : Routine} {n : Nat} {imm : BitVec n}
    (hshape : accumulates 0 r.statements = true)
    (hdisj : r.statements.Pairwise fun f g => f.dest + f.len ≤ g.dest ∨ g.dest + g.len ≤ f.dest)
    (hjoin : joinFields (h.readReg 10) 0 r.statements = place w imm r.shamt) :
    r.result h = (place w imm r.shamt).sshiftRight r.shamt := by
  rw [Routine.result, readReg_foldl_evalStatement h hshape, Hart.readReg_zero, placeFields_zero _ hdisj, hjoin]

theorem result_decodeSRoutine :
    decodeSRoutine.result h = (place w (immS ((h.readReg 10).setWidth 32)) 20).sshiftRight 20 := by
  refine Routine.result_eq h (by decide) (by decide) ?_
  simp (disch := omega) [decodeSRoutine, joinFields, immS, place_or, place_place, BitVec.extractLsb'_setWidth_of_le]

theorem result_decodeBRoutine :
    decodeBRoutine.result h = (place w (immB ((h.readReg 10).setWidth 32)) 19).sshiftRight 19 := by
  refine Routine.result_eq h (by decide) (by decide) ?_
  simp (disch := omega) [decodeBRoutine, joinFields, immB, place_or, place_place, BitVec.extractLsb'_setWidth_of_le]
  grind only

theorem result_decodeJRoutine :
    decodeJRoutine.result h = (place w (immJ ((h.readReg 10).setWidth 32)) 11).sshiftRight 11 := by
  refine Routine.result_eq h (by decide) (by decide) ?_
  simp (disch := omega) [decodeJRoutine, joinFields, immJ, place_or, place_place, BitVec.extractLsb'_setWidth_of_le]

theorem result_decodeCJRoutine :
    decodeCJRoutine.result h = (place w (immCJ (((h.readReg 10).setWidth 32).setWidth 16)) 20).sshiftRight 20 := by
  refine Routine.result_eq h (by decide) (by decide) ?_
  simp (disch := omega) [decodeCJRoutine, joinFields, immCJ, place_or, place_place, BitVec.extractLsb'_setWidth_of_le]
  grind only

end

/-- Settles O51: the immediate ends at bit 31, the top bit on RV32 and below it on RV64. -/
theorem routinesDecodeImmediates : Obligations.RoutinesDecodeImmediates := by
  refine ⟨fun h => ?rv32, fun h => ?rv64⟩
  case rv32 =>
    rw [result_decodeSRoutine, result_decodeBRoutine, result_decodeJRoutine, result_decodeCJRoutine, BitVec.setWidth_eq]
    exact ⟨sshiftRight_place_of_top _ (by decide) (by decide), sshiftRight_place_of_top _ (by decide) (by decide),
      sshiftRight_place_of_top _ (by decide) (by decide), sshiftRight_place_of_top _ (by decide) (by decide)⟩
  case rv64 =>
    rw [result_decodeSRoutine, result_decodeBRoutine, result_decodeJRoutine, result_decodeCJRoutine]
    exact ⟨sshiftRight_place_of_below _ (by decide), sshiftRight_place_of_below _ (by decide),
      sshiftRight_place_of_below _ (by decide), sshiftRight_place_of_below _ (by decide)⟩

end Sys2Proof.Machine
